-- ==== Sys2Proof/Word.lean ====
section
/-! DEFINITION. The value types of the block (R8, R9): exact-width words, the decoded row and palette, and the two selectors
`Surf` and `Src`. Every type here is exactly as wide as the spec says, so an operand outside its range cannot be written down. -/

namespace Sys2Proof

/-- `u2`: a raw intensity or a shade index, `{0,1,2,3}` (R9). -/
abbrev U2 := BitVec 2

/-- `u3`: a row or a column within a tile, `[0,8)` (R9). -/
abbrev U3 := BitVec 3

/-- `u5`: a grid coordinate, `[0,32)` (R9). -/
abbrev U5 := BitVec 5

/-- `u8`: a byte, a tile index, a scroll value, a pixel coordinate operand (R9). -/
abbrev Byte := BitVec 8

/-- `Rgba`: a pixel, `{R[7:0], G[7:0], B[7:0], A[7:0]}` with `R` most significant (R9, R25). -/
abbrev Rgba := BitVec 32

/-- One 64-bit command word (R81). -/
abbrev CmdWord := BitVec 64

/-- One 33-bit response word (R83). -/
abbrev RespWord := BitVec 33

/-- `Row`: 8 raw intensities, index 0 the leftmost pixel (R9). -/
abbrev Row := Vector U2 8

/-- `Pal`: 4 shade indices, indexed by raw intensity (R9). -/
abbrev Pal := Vector U2 4

/-- `Surf`: the surface a command names, `BG` encoded 0, `SPR` encoded 1 (R9). -/
inductive Surf where
  | bg
  | spr
deriving DecidableEq, Repr

/-- `Src`: the row accessor that supplies a tile row, `BGSRC` encoded 0, `SPRSRC` encoded 1 (R9, R132). -/
inductive Src where
  | bgsrc
  | sprsrc
deriving DecidableEq, Repr

end Sys2Proof
end

