-- ==== Sys2Proof/Syntax.lean ====
section
/-! DEFINITION. The eleven operations of the command port, one constructor per row of the operation map (R84). -/

namespace Sys2Proof

/-- The block's operations with their operands at the widths of R88 and R89. `line` is the mathematical integer of R155 and
R170; the encoder gives it 16 bits and `Instr.wellFormed` bounds it. -/
inductive Instr where
  /-- `DECROW lo, hi` (R111). -/
  | decrow (lo hi : Byte)
  /-- `DECPAL byte` (R122). -/
  | decpal (byte : Byte)
  /-- `GETROW tile, row, src` (R131). -/
  | getrow (tile : Byte) (row : U3) (src : Src)
  /-- `INVAL` (R135). -/
  | inval
  /-- `WRAP scroll, offset` (R146). -/
  | wrap (scroll offset : Byte)
  /-- `BGLINE line` (R155). -/
  | bgline (line : Int)
  /-- `SPRLINE line` (R170). -/
  | sprline (line : Int)
  /-- `CLRFRAME` (R195). -/
  | clrframe
  /-- `CLEAR surf` (R198). -/
  | clear (surf : Surf)
  /-- `WRPIX surf, x, y, rgba` (R200). -/
  | wrpix (surf : Surf) (x y : Byte) (rgba : Rgba)
  /-- `RDPIX surf, x, y` (R203). -/
  | rdpix (surf : Surf) (x y : Byte)
deriving DecidableEq, Repr

end Sys2Proof
end

