-- ==== Sys2Proof/WellFormed.lean ====
section
/-! DEFINITION. Which terms of `Instr` the hardware has: every operand is exact by its type except `line`, a 16-bit
two's-complement integer (R88). -/

namespace Sys2Proof

/-- `line` fits the 16-bit field of format `L`: "range `[−32768, 32767]`" (R88). -/
def lineInRange (line : Int) : Bool := decide (-32768 ≤ line ∧ line ≤ 32767)

/-- The operands fit their encoding fields (R88, R89). -/
def Instr.wellFormed : Instr → Bool
  | .decrow _ _ => true
  | .decpal _ => true
  | .getrow _ _ _ => true
  | .inval => true
  | .wrap _ _ => true
  | .bgline line => lineInRange line
  | .sprline line => lineInRange line
  | .clrframe => true
  | .clear _ => true
  | .wrpix _ _ _ _ => true
  | .rdpix _ _ _ => true

end Sys2Proof
end

