-- ==== Sys2Proof/Decode.lean ====
section
/-! DEFINITION. The command word (R81), its formats (R82), the operation map (R84), the decoder, total on all 64-bit words and
rejecting by name (R90), the encoder, and the opcode table's own `match`/`mask` rows. -/

namespace Sys2Proof

/-- The eight formats of R82. -/
inductive Format where
  | n | b1 | b2 | k | l | s | p | pd
deriving DecidableEq, Repr

/-- Why a word is no command (R90). -/
inductive Reject where
  /-- The `op` field is `0x00` or in `0x0C..0xFF`. -/
  | unassignedOp (op : Byte)
  /-- The operation exists and a bit its format does not name is set. -/
  | mustBeZeroSet (op : Byte)
deriving DecidableEq, Repr

/-- `op = w[63:56]` (R81). -/
def opField (w : CmdWord) : Byte := w.extractLsb' 56 8

/-- Operand byte `a[7:0]`: `b0`, `tile` or `x` (R82). -/
def b0Field (w : CmdWord) : Byte := w.extractLsb' 32 8

/-- Operand byte `a[15:8]`: `b1` or `y` (R82). -/
def b1Field (w : CmdWord) : Byte := w.extractLsb' 40 8

/-- `row = a[10:8]` of format `K` (R82). -/
def rowField (w : CmdWord) : U3 := w.extractLsb' 40 3

/-- `src = a[11]` of format `K` (R82, R89). -/
def srcField (w : CmdWord) : Src := if w.getLsbD 43 then .sprsrc else .bgsrc

/-- `line = sext_16(a[15:0])` of format `L` (R88). -/
def lineField (w : CmdWord) : Int := (w.extractLsb' 32 16).toInt

/-- The surface bit: `a[0]` of format `S` at position 32, `a[16]` of formats `P` and `PD` at position 48 (R82, R89). -/
def surfField (pos : Nat) (w : CmdWord) : Surf := if w.getLsbD pos then .spr else .bg

/-- `d = w[31:0]` (R81). -/
def dField (w : CmdWord) : Rgba := w.extractLsb' 0 32

/-- The bits of `a` and `d` that a format names (R82). -/
def Format.operandBits : Format → CmdWord
  | .n => 0x0000000000000000
  | .b1 => 0x000000FF00000000
  | .b2 => 0x0000FFFF00000000
  | .k => 0x00000FFF00000000
  | .l => 0x0000FFFF00000000
  | .s => 0x0000000100000000
  | .p => 0x0001FFFF00000000
  | .pd => 0x0001FFFFFFFFFFFF

/-- The bits of `a` and `d` a format does not name: "must be zero" (R82). -/
def Format.mustBeZero (f : Format) : CmdWord := 0x00FFFFFFFFFFFFFF &&& ~~~f.operandBits

/-- The format of an operation code (R84), none for an unassigned one. -/
def formatOf (op : Byte) : Option Format :=
  if op = 0x01 then some .b2
  else if op = 0x02 then some .b1
  else if op = 0x03 then some .k
  else if op = 0x04 then some .n
  else if op = 0x05 then some .b2
  else if op = 0x06 then some .l
  else if op = 0x07 then some .l
  else if op = 0x08 then some .n
  else if op = 0x09 then some .s
  else if op = 0x0A then some .pd
  else if op = 0x0B then some .p
  else none

/-- The operation of a legal word, its operands taken from the fields of R82 and R84. Only `decode` calls it, after its checks. -/
def operandsOf (w : CmdWord) : Instr :=
  let op := opField w
  if op = 0x01 then .decrow (b0Field w) (b1Field w)
  else if op = 0x02 then .decpal (b0Field w)
  else if op = 0x03 then .getrow (b0Field w) (rowField w) (srcField w)
  else if op = 0x04 then .inval
  else if op = 0x05 then .wrap (b1Field w) (b0Field w)
  else if op = 0x06 then .bgline (lineField w)
  else if op = 0x07 then .sprline (lineField w)
  else if op = 0x08 then .clrframe
  else if op = 0x09 then .clear (surfField 32 w)
  else if op = 0x0A then .wrpix (surfField 48 w) (b0Field w) (b1Field w) (dField w)
  else .rdpix (surfField 48 w) (b0Field w) (b1Field w)

/-- "A decoder reads `op`, selects the format, checks the must-be-zero bits" (R92); every other word is illegal (R90). -/
def decode (w : CmdWord) : Except Reject Instr :=
  match formatOf (opField w) with
  | none => .error (.unassignedOp (opField w))
  | some f => if w &&& f.mustBeZero = 0 then .ok (operandsOf w) else .error (.mustBeZeroSet (opField w))

/-- The decoder on a word of the opcode table, whose bits are numbered as a command word's are; a word has 64 bits (R81). -/
def decodeTableWord (nbits w : Nat) : Option Instr :=
  if w % 2 ^ nbits < 2 ^ 64 then
    match decode (BitVec.ofNat 64 (w % 2 ^ nbits)) with
    | .ok i => some i
    | .error _ => none
  else none

/-- `{op, a, d}` (R81). -/
def assemble (op : Byte) (a : BitVec 24) (d : Rgba) : CmdWord := op ++ a ++ d

/-- The encoding bit of a surface (R9). -/
def Surf.bit : Surf → BitVec 1
  | .bg => 0
  | .spr => 1

/-- The encoding bit of a source (R9). -/
def Src.bit : Src → BitVec 1
  | .bgsrc => 0
  | .sprsrc => 1

/-- The operation code of an operation (R84). -/
def Instr.opcode : Instr → Byte
  | .decrow _ _ => 0x01
  | .decpal _ => 0x02
  | .getrow _ _ _ => 0x03
  | .inval => 0x04
  | .wrap _ _ => 0x05
  | .bgline _ => 0x06
  | .sprline _ => 0x07
  | .clrframe => 0x08
  | .clear _ => 0x09
  | .wrpix _ _ _ _ => 0x0A
  | .rdpix _ _ _ => 0x0B

/-- The 24-bit operand field `a` of an operation (R82, R84). -/
def Instr.aField : Instr → BitVec 24
  | .decrow lo hi => 0#8 ++ hi ++ lo
  | .decpal byte => 0#16 ++ byte
  | .getrow tile row src => 0#12 ++ src.bit ++ row ++ tile
  | .inval => 0#24
  | .wrap scroll offset => 0#8 ++ scroll ++ offset
  | .bgline line => 0#8 ++ BitVec.ofInt 16 line
  | .sprline line => 0#8 ++ BitVec.ofInt 16 line
  | .clrframe => 0#24
  | .clear surf => 0#23 ++ surf.bit
  | .wrpix surf x y _ => 0#7 ++ surf.bit ++ y ++ x
  | .rdpix surf x y => 0#7 ++ surf.bit ++ y ++ x

/-- The 32-bit data field `d` of an operation: the pixel of `WRPIX`, zero in every other command (R81). -/
def Instr.dataField : Instr → Rgba
  | .decrow _ _ => 0
  | .decpal _ => 0
  | .getrow _ _ _ => 0
  | .inval => 0
  | .wrap _ _ => 0
  | .bgline _ => 0
  | .sprline _ => 0
  | .clrframe => 0
  | .clear _ => 0
  | .wrpix _ _ _ rgba => rgba
  | .rdpix _ _ _ => 0

/-- The command word of an operation (R81, R82, R84). -/
def encode (i : Instr) : CmdWord := assemble i.opcode i.aField i.dataField

/-- A row of the opcode table: "a command word `w` selects the row exactly when `(w AND mask) = match`". -/
structure OpRow where
  mnemonic : String
  format : Format
  pattern : CmdWord
  mask : CmdWord
deriving DecidableEq, Repr

/-- The opcode table as the spec lists it (R84, R90). -/
def opcodeTable : List OpRow :=
  [ ⟨"DECROW", .b2, 0x0100000000000000, 0xFFFF0000FFFFFFFF⟩,
    ⟨"DECPAL", .b1, 0x0200000000000000, 0xFFFFFF00FFFFFFFF⟩,
    ⟨"GETROW", .k, 0x0300000000000000, 0xFFFFF000FFFFFFFF⟩,
    ⟨"INVAL", .n, 0x0400000000000000, 0xFFFFFFFFFFFFFFFF⟩,
    ⟨"WRAP", .b2, 0x0500000000000000, 0xFFFF0000FFFFFFFF⟩,
    ⟨"BGLINE", .l, 0x0600000000000000, 0xFFFF0000FFFFFFFF⟩,
    ⟨"SPRLINE", .l, 0x0700000000000000, 0xFFFF0000FFFFFFFF⟩,
    ⟨"CLRFRAME", .n, 0x0800000000000000, 0xFFFFFFFFFFFFFFFF⟩,
    ⟨"CLEAR", .s, 0x0900000000000000, 0xFFFFFFFEFFFFFFFF⟩,
    ⟨"WRPIX", .pd, 0x0A00000000000000, 0xFFFE000000000000⟩,
    ⟨"RDPIX", .p, 0x0B00000000000000, 0xFFFE0000FFFFFFFF⟩ ]

/-- The word selects the row (R90, INDEX.md). -/
def OpRow.selects (row : OpRow) (w : CmdWord) : Bool := w &&& row.mask = row.pattern

/-- The row an operation belongs to, by its mnemonic (R84). -/
def Instr.mnemonic : Instr → String
  | .decrow _ _ => "DECROW"
  | .decpal _ => "DECPAL"
  | .getrow _ _ _ => "GETROW"
  | .inval => "INVAL"
  | .wrap _ _ => "WRAP"
  | .bgline _ => "BGLINE"
  | .sprline _ => "SPRLINE"
  | .clrframe => "CLRFRAME"
  | .clear _ => "CLEAR"
  | .wrpix _ _ _ _ => "WRPIX"
  | .rdpix _ _ _ => "RDPIX"

end Sys2Proof
end

