-- ==== Sys2Proof/Config.lean ====
section
/-! DEFINITION. What is fixed for the machine: the parameters of R6, the open parameter `SHADE_RGB` (R30) and the free values
of the reset draw (R39, R240). The last two are opaque: no proof can see a value of them. -/

namespace Sys2Proof.Config

/-- `SCREEN_W` (R6). -/
abbrev screenW : Nat := 160
/-- `SCREEN_H` (R6). -/
abbrev screenH : Nat := 144
/-- Elements of a surface, `PixAddr` ranges over `[0, 23040)` (R12, R22). -/
abbrev nPixels : Nat := 23040
/-- `N_SPRITES` (R6). -/
abbrev nSprites : Nat := 40
/-- `RC_ENTRIES` (R7, R27). -/
abbrev rcEntries : Nat := 4096
/-- Cells of the 32 by 32 tile map (R6, R36). -/
abbrev nCells : Nat := 1024
/-- Rows of one pattern table, 256 tiles of 8 rows (R37). -/
abbrev nRows : Nat := 2048

/-- The arrays of the block whose contents reset leaves unspecified (R39). -/
inductive Space where
  | bgs
  | sps
  | raw
  | claim
deriving DecidableEq, Repr

/-- Colour `c` is at most `c'` in each of red, green and blue (R9). -/
def channelsAtMost (c c' : BitVec 24) : Bool :=
  decide (c.extractLsb' 16 8 ≤ c'.extractLsb' 16 8 ∧ c.extractLsb' 8 8 ≤ c'.extractLsb' 8 8 ∧
    c.extractLsb' 0 8 ≤ c'.extractLsb' 0 8)

/-- The sum of the channels: one measure of lightness, to show that one exists. -/
def channelSum (c : BitVec 24) : Nat :=
  (c.extractLsb' 16 8).toNat + (c.extractLsb' 8 8).toNat + (c.extractLsb' 0 8).toNat

/-- An admissible value of the open parameter `SHADE_RGB`: four pairwise distinct 24-bit colours, "ordered lightest→darkest"
(R7, R30). The spec names no measure of lightness, so the measure is open too (assumption 4). The default fields, with the
spec's offered colours, only show that an admissible value exists. -/
structure ShadeTable where
  /-- `SHADE_RGB[0..3]`. -/
  rgb : Vector (BitVec 24) 4 := #v[0xFFFFFF, 0xAAAAAA, 0x555555, 0x000000]
  /-- How light a colour is. -/
  lightness : BitVec 24 → Nat := channelSum
  /-- What is at most another colour in every channel is no lighter. -/
  monotone : ∀ c c', channelsAtMost c c' = true → lightness c ≤ lightness c' := by
    intro c c' h
    simp only [channelsAtMost, decide_eq_true_eq, BitVec.le_def] at h
    simp only [channelSum]
    omega
  /-- "The four values must be pairwise distinct" (R30). -/
  distinct : ∀ i j : Fin 4, rgb[i] = rgb[j] → i = j := by decide
  /-- "index 0 lightest, index 3 darkest" (R7, R30). -/
  ordered : ∀ i j : Fin 4, i < j → lightness rgb[j] < lightness rgb[i] := by decide
deriving Inhabited

/-- The open parameter `SHADE_RGB` (R7, R30; assumption 4). Opaque: any admissible table. -/
opaque shadeTable : ShadeTable

/-- FREE VALUE (assumption 1): the content of element `index` of `space` drawn by the reset numbered `draw` (R39, R240: "each
element an arbitrary value drawn at reset, under no law, possibly different at every reset"). -/
opaque unspecified (α : Type) [Inhabited α] (space : Space) (draw index : Nat) : α

end Sys2Proof.Config
end

