-- ==== Sys2Proof/Machine/State.lean ====
section
/-! DEFINITION. The state of the block (R22), the environment it reads (R13, R38), and the serial stream of commands and events
that reaches it (R61). Everything is plain data; arrays are sparse lists in one canonical form (`Memory.wf`). -/

namespace Sys2Proof.Machine

/-- What the elements of an array that are not listed hold. -/
inductive Fill (α : Type) where
  /-- Every unlisted element is `v` (a cleared surface, an empty cache). -/
  | known (v : α)
  /-- Every unlisted element is unspecified: the content drawn by reset number `draw` (R39, assumption 1). -/
  | drawn (space : Config.Space) (draw : Nat)
deriving DecidableEq, Repr

/-- An element-addressed array (R50, R51): the elements that differ from the fill, by rising index. -/
structure Memory (α : Type) where
  fill : Fill α
  cells : List (Nat × α)
deriving DecidableEq, Repr

/-- What a row accessor returns: the low bit-plane, then the high bit-plane (R13, R37, R53). -/
structure BytePair where
  lo : Byte
  hi : Byte
deriving DecidableEq, Repr, Inhabited

/-- One record of the sprite-attribute table (R34). -/
structure SpriteEntry where
  y : Byte
  x : Byte
  tile : Byte
  attr : Byte
deriving DecidableEq, Repr, Inhabited

/-- `Env`: everything the collaborator answers (R13, R31 to R37). The core only reads it. -/
structure Env where
  /-- Scroll-x (R31). -/
  scx : Byte
  /-- Scroll-y (R31). -/
  scy : Byte
  /-- Background palette byte (R32). -/
  bgp : Byte
  /-- Sprite palette 0 byte (R32). -/
  obp0 : Byte
  /-- Sprite palette 1 byte (R32). -/
  obp1 : Byte
  /-- The sprites-enabled flag (R33). -/
  spritesEnabled : Bool
  /-- The 32×32 tile map, cell `(gx, gy)` at `gy × 32 + gx` (R36, R55). -/
  tileMap : Memory Byte
  /-- Background pattern rows, row `r` of tile `t` at `t × 8 + r` (R37). -/
  bgRows : Memory BytePair
  /-- Sprite pattern rows, row `r` of tile `t` at `t × 8 + r` (R37). -/
  sprRows : Memory BytePair
  /-- The sprite-attribute table, 40 entries (R34). -/
  sprites : Memory SpriteEntry
deriving DecidableEq, Repr

/-- One item of the serial stream (R61): what the driver, the collaborator or the reset port does next (R3, R80). -/
inductive Event where
  /-- A command word is presented on `cmd` (R80, R81). -/
  | command (w : CmdWord)
  /-- The write-notification fires (R80, R136). -/
  | notify
  /-- Between two commands the collaborator's memory and registers become `env` (R38, R60). -/
  | collaborator (env : Env)
  /-- `reset` is asserted (R80, R240). -/
  | reset
deriving DecidableEq, Repr

/-- The fault codes held in `FCODE` (R216). -/
inductive FaultCode where
  /-- 0: the value of `FCODE` while `FAULT = 0`. -/
  | noFault
  /-- 1 `EXTENT`: a pixel access outside a surface (R217). -/
  | extent
  /-- 2 `KEY`: reserved, unreachable (R219). -/
  | key
  /-- 3 `ILLEGAL_COMMAND`: a word that is no legal encoding (R218). -/
  | illegalCommand
deriving DecidableEq, Repr

/-- Reasons for the model to stop. None: every fault the spec names is taken as a next state with the `FAULT` latch set (R221),
and every command has a response (R83). Nothing raises a `Fault`, so none is unsafe. -/
inductive Fault where
deriving DecidableEq, Repr

/-- Reasons for the model to give no meaning. -/
inductive Refusal where
  /-- Raised only by an arm of `exec` whose instruction has no meaning yet; safe. No arm raises it. -/
  | notModelled (mnemonic : String)
deriving DecidableEq, Repr

/-- The complete state of the block (R22), the environment (R38), the stream still to come (R61), the response port (R80, R83)
and the model's own count of reset draws (assumption 1). -/
@[ext]
structure State where
  /-- `BGS`, the background surface (R23). -/
  bgs : Memory Rgba
  /-- `SPS`, the sprite surface (R24). -/
  sps : Memory Rgba
  /-- `RAW`, the raw background intensities (R26). -/
  raw : Memory U2
  /-- `RC`, the tile-row cache: `none` where `valid = 0`, `some row` where `valid = 1` (R27). -/
  rc : Memory (Option Row)
  /-- `CLAIM`, the sprite-pass claim mask (R28). -/
  claim : Memory Bool
  /-- `FAULT` (R29). -/
  fault : Bool
  /-- `FCODE` (R29, R216). -/
  fcode : FaultCode
  /-- `Env` as it stands now (R38). -/
  env : Env
  /-- The items of the stream not yet executed, the next one first (R61). -/
  pending : List Event
  /-- The response word of the last command since reset, none before the first (R80, R83). -/
  resp : Option RespWord
  /-- The MODEL's field: how many resets have drawn contents, the number of the next draw. -/
  draws : Nat
deriving DecidableEq, Repr

/-- The environment of `State.reset`: no spec value exists ("not in the source", R39); all zero, sprites off (assumption 2). -/
def Env.initial : Env where
  scx := 0
  scy := 0
  bgp := 0
  obp0 := 0
  obp1 := 0
  spritesEnabled := false
  tileMap := ⟨.known 0, []⟩
  bgRows := ⟨.known ⟨0, 0⟩, []⟩
  sprRows := ⟨.known ⟨0, 0⟩, []⟩
  sprites := ⟨.known ⟨0, 0, 0, 0⟩, []⟩

/-- The machine right after reset (R39, R240): cache empty, no fault, surfaces, `RAW` and `CLAIM` unspecified (draw 0); nothing
has been presented yet (R241). -/
def State.reset : State where
  bgs := ⟨.drawn .bgs 0, []⟩
  sps := ⟨.drawn .sps 0, []⟩
  raw := ⟨.drawn .raw 0, []⟩
  rc := ⟨.known none, []⟩
  claim := ⟨.drawn .claim 0, []⟩
  fault := false
  fcode := .noFault
  env := Env.initial
  pending := []
  resp := none
  draws := 1

end Sys2Proof.Machine
end

