-- ==== Sys2Proof/Machine/Memory.lean ====
section
/-! DEFINITION. Reading, writing and clearing an element-addressed array (R11, R12, R50), and its canonical form. -/

namespace Sys2Proof.Machine

variable {α : Type}

/-- The listed element at an index. -/
def Memory.lookup : List (Nat × α) → Nat → Option α
  | [], _ => none
  | (b, v) :: rest, a => if b = a then some v else Memory.lookup rest a

/-- What an unlisted element reads as: the one definition of it (assumption 1 for drawn contents). -/
def Memory.unlisted [Inhabited α] (m : Memory α) (a : Nat) : α :=
  match m.fill with
  | .known v => v
  | .drawn space draw => Config.unspecified α space draw a

/-- `NAME[a]` (R11). -/
def Memory.read [Inhabited α] (m : Memory α) (a : Nat) : α :=
  (Memory.lookup m.cells a).getD (m.unlisted a)

/-- List the element at its place by rising index. -/
def Memory.insert (a : Nat) (v : α) : List (Nat × α) → List (Nat × α)
  | [] => [(a, v)]
  | (b, u) :: rest =>
    if a < b then (a, v) :: (b, u) :: rest
    else if a = b then (a, v) :: rest
    else (b, u) :: Memory.insert a v rest

/-- Take the element off the list. -/
def Memory.erase (a : Nat) (cells : List (Nat × α)) : List (Nat × α) := cells.filter fun c => decide (c.1 ≠ a)

/-- `NAME[a] <- v` (R11): the value every unlisted element holds is not listed. -/
def Memory.write [DecidableEq α] (m : Memory α) (a : Nat) (v : α) : Memory α :=
  ⟨m.fill, if m.fill = .known v then Memory.erase a m.cells else Memory.insert a v m.cells⟩

/-- The array every element of which is `v`. -/
def Memory.filled (v : α) : Memory α := ⟨.known v, []⟩

/-- The array as reset leaves it: unspecified contents (R39, R240). -/
def Memory.drawn (space : Config.Space) (draw : Nat) : Memory α := ⟨.drawn space draw, []⟩

/-- The canonical form of an array of `size` elements: indices strictly rising and inside the array, and no listed element
equal to what an unlisted one is known to hold. -/
abbrev Memory.wf (size : Nat) (m : Memory α) : Prop :=
  (m.cells.map Prod.fst).Pairwise (· < ·) ∧ (∀ c ∈ m.cells, c.1 < size) ∧ (∀ c ∈ m.cells, m.fill ≠ .known c.2)

end Sys2Proof.Machine
end

