-- ==== Sys2Proof/Machine/Operands.lean ====
section
/-! DEFINITION. Operands, indices and results: the pixel address (R12), the line guard (R159, R171), the extent check (R217), the
sprite attribute bits (R35), the environment accessors (R13) and the packing of results (R83 to R87). -/

namespace Sys2Proof.Machine

/-- `PixAddr(x, y) = y × 160 + x` (R12). -/
def pixAddr (x y : Nat) : Nat := y * Config.screenW + x

/-- `line` is a screen line: `0 ≤ line < 144` (R159, R171). -/
def visibleLine (line : Int) : Bool := decide (0 ≤ line ∧ line < 144)

/-- The pixel lies inside a surface; its negation is the check `x ≥ 160 or y ≥ 144` (R217). -/
def inExtent (x y : Byte) : Bool := decide (x.toNat < Config.screenW ∧ y.toNat < Config.screenH)

/-- Pixel `c` of a row, 0 the leftmost (R9). -/
def rowPixel (row : Row) (c : U3) : U2 := row[c.toNat]'c.isLt

/-- `reverse(row)[c] = row[7 − c]` (R10). -/
def reverseRow (row : Row) : Row := Vector.ofFn fun c => row[7 - c.val]

/-- The shade index of a raw intensity (R9). -/
def palEntry (pal : Pal) (raw : U2) : U2 := pal[raw.toNat]'raw.isLt

/-- `PackRow`: bits `[15 − 2k : 14 − 2k]` hold `row[k]` (R85). -/
def packRow (row : Row) : BitVec 16 :=
  row[0] ++ row[1] ++ row[2] ++ row[3] ++ row[4] ++ row[5] ++ row[6] ++ row[7]

/-- `UnpackRow`, the inverse of `PackRow` (R85). -/
def unpackRow (v : BitVec 16) : Row := Vector.ofFn fun k => v.extractLsb' (14 - 2 * k.val) 2

/-- `PackPal`: bits `[2i+1 : 2i]` hold `pal[i]` (R86). -/
def packPal (pal : Pal) : Byte := pal[3] ++ pal[2] ++ pal[1] ++ pal[0]

/-- Bit 7 of `attr`, `BGPRI` (R35). -/
def SpriteEntry.bgPri (e : SpriteEntry) : Bool := e.attr.getLsbD 7

/-- Bit 6 of `attr`, `VFLIP` (R35). -/
def SpriteEntry.vFlip (e : SpriteEntry) : Bool := e.attr.getLsbD 6

/-- Bit 5 of `attr`, `HFLIP` (R35). -/
def SpriteEntry.hFlip (e : SpriteEntry) : Bool := e.attr.getLsbD 5

/-- Bit 4 of `attr`, `PAL` (R35). -/
def SpriteEntry.palSel (e : SpriteEntry) : Bool := e.attr.getLsbD 4

/-- `Env.tileMap(gx, gy)` (R13, R55). -/
def Env.tileAt (e : Env) (gx gy : U5) : Byte := e.tileMap.read (gy.toNat * 32 + gx.toNat)

/-- The index of a pattern row: 11 bits `{t, r}` (R80). -/
def patternIndex (t : Byte) (r : U3) : Nat := t.toNat * 8 + r.toNat

/-- `Env.bgRow(t, r)` (R13). -/
def Env.bgRow (e : Env) (t : Byte) (r : U3) : BytePair := e.bgRows.read (patternIndex t r)

/-- `Env.sprRow(t, r)` (R13). -/
def Env.sprRow (e : Env) (t : Byte) (r : U3) : BytePair := e.sprRows.read (patternIndex t r)

/-- `Env.row_s(t, r)`: the row accessor of a source (R64, R130). -/
def Env.rowOf (e : Env) (t : Byte) (r : U3) : Src → BytePair
  | .bgsrc => e.bgRow t r
  | .sprsrc => e.sprRow t r

/-- `Env.sprite(n)` (R13). -/
def Env.sprite (e : Env) (n : Nat) : SpriteEntry := e.sprites.read n

end Sys2Proof.Machine
end

