-- ==== Sys2Proof/Machine/Flags.lean ====
section
/-! DEFINITION. The one status flag `FAULT` with its qualifier `FCODE` (R29, R216), and the response word that reports them (R83). -/

namespace Sys2Proof.Machine

/-- The two bits of `FCODE` (R216). -/
def FaultCode.bits : FaultCode → BitVec 2
  | .noFault => 0
  | .extent => 1
  | .key => 2
  | .illegalCommand => 3

/-- `fault = 0`, `data` the operation's result (R83). -/
def okResponse (data : BitVec 32) : RespWord := 0#1 ++ data

/-- `fault = 1`, `data = {30 zero bits, FCODE[1:0]}` (R83). -/
def faultResponse (code : FaultCode) : RespWord := 1#1 ++ (0#30 ++ code.bits)

/-- Bit `[32]` of a response word (R83). -/
def respFault (r : RespWord) : Bool := r.getLsbD 32

/-- Bits `[31:0]` of a response word (R83). -/
def respData (r : RespWord) : BitVec 32 := r.extractLsb' 0 32

end Sys2Proof.Machine
end

