-- ==== Sys2Proof/Machine/Ops.lean ====
section
/-! DEFINITION. The shared operations of the commands: answering, the latch test, taking a fault, reset (its only return), and the
compositor's accesses to the surfaces and `RAW`. -/

namespace Sys2Proof.Machine

/-- `respond data = d` (R83). -/
def respond (d : BitVec 32) (s : State) : State := { s with resp := some (okResponse d) }

/-- A command while `FAULT = 1`: no state changes, the response is `fault = 1`, `data = FCODE` (R220). -/
def refuse (s : State) : State := { s with resp := some (faultResponse s.fcode) }

/-- TAKING A FAULT, `raise Fault(code)` (R14, R221): `FAULT <- 1`, `FCODE <- code`, response `fault = 1`, `data = code`;
nothing is saved, no mode changes, control goes nowhere. -/
def raiseFault (code : FaultCode) (s : State) : State :=
  { s with fault := true, fcode := code, resp := some (faultResponse code) }

/-- Every command tests the latch first (R220). -/
def unlessFaulted (s : State) (run : State → State) : Host.Outcome State Fault Refusal :=
  if s.fault then .next (refuse s) else .next (run s)

/-- A word that is no legal encoding: refused while `FAULT = 1`, else `ILLEGAL_COMMAND` (R90, R218, R223). -/
def illegalCommand (s : State) : Host.Outcome State Fault Refusal := unlessFaulted s (raiseFault .illegalCommand)

/-- `reset` (R39, R240): the only way out of the faulted state (R224). Cache empty, no fault, fresh unspecified contents;
`Env` and the items still to come are not the block's. -/
def resetBlock (s : State) : State :=
  { s with
    bgs := Memory.drawn .bgs s.draws
    sps := Memory.drawn .sps s.draws
    raw := Memory.drawn .raw s.draws
    rc := Memory.filled none
    claim := Memory.drawn .claim s.draws
    fault := false
    fcode := .noFault
    resp := none
    draws := s.draws + 1 }

/-- Between two commands the collaborator's memory and registers become `env` (R38, R60). -/
def setEnv (env : Env) (s : State) : State := { s with env := env }

/-- Take the next item off the stream (R61). -/
def setPending (rest : List Event) (s : State) : State := { s with pending := rest }

/-- `WritePixel(surf, x, y, v)`: unconditional overwrite (R199). -/
def writePixel (surf : Surf) (x y : Nat) (v : Rgba) (s : State) : State :=
  match surf with
  | .bg => { s with bgs := s.bgs.write (pixAddr x y) v }
  | .spr => { s with sps := s.sps.write (pixAddr x y) v }

/-- `ReadPixel(surf, x, y)` (R202). -/
def readPixel (surf : Surf) (x y : Nat) (s : State) : Rgba :=
  match surf with
  | .bg => s.bgs.read (pixAddr x y)
  | .spr => s.sps.read (pixAddr x y)

/-- `RAW[y × 160 + x] <- v` (R158). -/
def writeRaw (x y : Nat) (v : U2) (s : State) : State := { s with raw := s.raw.write (pixAddr x y) v }

/-- `CLAIM[x] <- 1` (R28). -/
def claimColumn (x : Nat) (s : State) : State := { s with claim := s.claim.write x true }

/-- Every bit of `CLAIM` to 0 (R173). -/
def clearClaim (s : State) : State := { s with claim := Memory.filled false }

/-- `ClearSurface(surf)`: all pixels transparent, and `RAW` with the background (R196). -/
def clearSurface (surf : Surf) (s : State) : State :=
  match surf with
  | .bg => { s with bgs := Memory.filled 0, raw := Memory.filled 0 }
  | .spr => { s with sps := Memory.filled 0 }

/-- `RC[k] <- {valid = 1, row}` (R130). -/
def fillCache (k : Nat) (row : Row) (s : State) : State := { s with rc := s.rc.write k (some row) }

/-- `Invalidate()`: every `valid` bit to 0 (R134). -/
def invalidate (s : State) : State := { s with rc := Memory.filled none }

end Sys2Proof.Machine
end

