-- ==== Sys2Proof/Machine/PaletteResolver.lean ====
section
/-! DEFINITION. The palette resolver, the shade table and `DECPAL` (spec file 41, R30). -/

namespace Sys2Proof.Machine

/-- `DecodePalette(b)[i] = b[2i+1 : 2i]` (R120, R121). -/
def decodePalette (b : Byte) : Pal := Vector.ofFn fun i => b.extractLsb' (2 * i.val) 2

/-- `SHADE_RGB[i]` (R30). -/
def shadeRgb (i : U2) : BitVec 24 := Config.shadeTable.rgb[i.toNat]'i.isLt

/-- `SHADE[i] = {SHADE_RGB[i], 0xFF}` (R30), as the number `SHADE_RGB[i] × 256 + 255`: in this form the kernel tells a shade from
the transparent pixel by its alpha alone, whatever the opaque colour is. -/
def shade (i : U2) : Rgba :=
  BitVec.ofNatLT ((shadeRgb i).toNat * 256 + 255) (by have := (shadeRgb i).isLt; omega)

/-- `Colour(b, raw) = SHADE[DecodePalette(b)[raw]]` (R123). -/
def colour (b : Byte) (raw : U2) : Rgba := shade (palEntry (decodePalette b) raw)

/-- `DECPAL byte` (R122). -/
def execDecpal (byte : Byte) (s : State) : Host.Outcome State Fault Refusal :=
  unlessFaulted s (respond (0#24 ++ packPal (decodePalette byte)))

end Sys2Proof.Machine
end

