-- ==== Sys2Proof/Machine/ScrollMapper.lean ====
section
/-! DEFINITION. The scroll mapper and `WRAP` (spec file 43). -/

namespace Sys2Proof.Machine

/-- The triple `Wrap` returns (R145). -/
structure Wrapped where
  w : Byte
  tile : U5
  within : U3
deriving DecidableEq, Repr

/-- `Wrap(scroll, offset)`: the 9-bit sum with its carry dropped, then `w[7:3]` and `w[2:0]` (R145, R16). -/
def wrap (scroll offset : Byte) : Wrapped where
  w := scroll + offset
  tile := (scroll + offset).extractLsb' 3 5
  within := (scroll + offset).extractLsb' 0 3

/-- `{within[2:0], tile[4:0], w[7:0]}` (R87). -/
def packWrap (r : Wrapped) : BitVec 16 := r.within ++ r.tile ++ r.w

/-- `WRAP scroll, offset` (R146). -/
def execWrap (scroll offset : Byte) (s : State) : Host.Outcome State Fault Refusal :=
  unlessFaulted s (respond (0#16 ++ packWrap (wrap scroll offset)))

end Sys2Proof.Machine
end

