-- ==== Sys2Proof/Machine/TileDecoder.lean ====
section
/-! DEFINITION. The tile decoder and `DECROW` (spec file 40). -/

namespace Sys2Proof.Machine

/-- `DecodeRow(lo, hi)[k] = {hi[7−k], lo[7−k]}` (R110). -/
def decodeRow (lo hi : Byte) : Row :=
  Vector.ofFn fun k => BitVec.ofBool (hi.getLsbD (7 - k.val)) ++ BitVec.ofBool (lo.getLsbD (7 - k.val))

/-- `DECROW lo, hi` (R111). -/
def execDecrow (lo hi : Byte) (s : State) : Host.Outcome State Fault Refusal :=
  unlessFaulted s (respond (0#16 ++ packRow (decodeRow lo hi)))

end Sys2Proof.Machine
end

