-- ==== Sys2Proof/Machine/TileRowCache.lean ====
section
/-! DEFINITION. The tile-row cache, `GETROW` and `INVAL` (spec file 42). -/

namespace Sys2Proof.Machine

/-- The index of a key, `k = s × 2048 + t × 8 + r` (R132). -/
def cacheKey (t : Byte) (r : U3) (src : Src) : Nat := src.bit.toNat * 2048 + t.toNat * 8 + r.toNat

/-- `GetRow(t, r, s)`: the stored row on a hit; decode, store and return on a miss (R130). -/
def getRow (t : Byte) (r : U3) (src : Src) (s : State) : Row × State :=
  match s.rc.read (cacheKey t r src) with
  | some row => (row, s)
  | none =>
    let b := s.env.rowOf t r src
    let row := decodeRow b.lo b.hi
    (row, fillCache (cacheKey t r src) row s)

/-- `GETROW tile, row, src` (R131). -/
def execGetrow (tile : Byte) (row : U3) (src : Src) (s : State) : Host.Outcome State Fault Refusal :=
  unlessFaulted s fun s =>
    let f := getRow tile row src s
    respond (0#16 ++ packRow f.1) f.2

/-- `INVAL` (R135). -/
def execInval (s : State) : Host.Outcome State Fault Refusal :=
  unlessFaulted s fun s => respond 0 (invalidate s)

end Sys2Proof.Machine
end

