-- ==== Sys2Proof/Machine/BgLineRenderer.lean ====
section
/-! DEFINITION. The background line renderer and `BGLINE` (spec file 44). -/

namespace Sys2Proof.Machine

/-- What `BGLINE` fixes for its line before the column loop: the sampled scroll and palette (R156) and the results of step 2. -/
structure BgLine where
  line : Nat
  scx : Byte
  pal : Pal
  gridY : U5
  rowInTile : U3

/-- The registers sampled once, and `Wrap(scy, line)` (R155 step 2, R156). -/
def bgLine (line : Nat) (e : Env) : BgLine where
  line := line
  scx := e.scx
  pal := decodePalette e.bgp
  gridY := (wrap e.scy (BitVec.ofNat 8 line)).tile
  rowInTile := (wrap e.scy (BitVec.ofNat 8 line)).within

/-- Steps 3 to 6 for column `x` (R155, R157, R158). -/
def bgColumn (p : BgLine) (s : State) (x : Nat) : State :=
  let wx := wrap p.scx (BitVec.ofNat 8 x)
  let f := getRow (s.env.tileAt wx.tile p.gridY) p.rowInTile .bgsrc s
  let raw := rowPixel f.1 wx.within
  writePixel .bg x p.line (shade (palEntry p.pal raw)) (writeRaw x p.line raw f.2)

/-- The column loop, `x = 0, 1, ..., 159` (R155 step 3). -/
def renderBgLine (line : Nat) (s : State) : State :=
  (List.range Config.screenW).foldl (bgColumn (bgLine line s.env)) s

/-- `BGLINE line` (R155): a no-op outside `[0,144)` (R159). -/
def execBgline (line : Int) (s : State) : Host.Outcome State Fault Refusal :=
  unlessFaulted s fun s => respond 0 (if visibleLine line then renderBgLine line.toNat s else s)

end Sys2Proof.Machine
end

