-- ==== Sys2Proof/Machine/Compositor.lean ====
section
/-! DEFINITION. The compositor's commands (spec file 46). -/

namespace Sys2Proof.Machine

/-- `CLRFRAME` (R195). -/
def execClrframe (s : State) : Host.Outcome State Fault Refusal :=
  unlessFaulted s fun s => respond 0 (clearSurface .spr (clearSurface .bg s))

/-- `CLEAR surf` (R198). -/
def execClear (surf : Surf) (s : State) : Host.Outcome State Fault Refusal :=
  unlessFaulted s fun s => respond 0 (clearSurface surf s)

/-- `WRPIX surf, x, y, rgba` (R200): `EXTENT` and nothing written outside the surface (R217, R222). -/
def execWrpix (surf : Surf) (x y : Byte) (rgba : Rgba) (s : State) : Host.Outcome State Fault Refusal :=
  unlessFaulted s fun s =>
    if inExtent x y then respond 0 (writePixel surf x.toNat y.toNat rgba s) else raiseFault .extent s

/-- `RDPIX surf, x, y` (R203): `EXTENT` outside the surface (R217). -/
def execRdpix (surf : Surf) (x y : Byte) (s : State) : Host.Outcome State Fault Refusal :=
  unlessFaulted s fun s =>
    if inExtent x y then respond (readPixel surf x.toNat y.toNat s) s else raiseFault .extent s

end Sys2Proof.Machine
end

