-- ==== Sys2Proof/Machine/SpriteLineRenderer.lean ====
section
/-! DEFINITION. The sprite line renderer and `SPRLINE` (spec file 45). -/

namespace Sys2Proof.Machine

/-- What a pass fixes before its loop: the line and both decoded palettes (R173). -/
structure SpritePass where
  line : Nat
  pal0 : Pal
  pal1 : Pal

/-- Sample the palette registers (R173). -/
def spritePass (line : Nat) (e : Env) : SpritePass where
  line := line
  pal0 := decodePalette e.obp0
  pal1 := decodePalette e.obp1

/-- `top = y − 16`, an integer (R174, R16). -/
def spriteTop (e : SpriteEntry) : Int := (e.y.toNat : Int) - 16

/-- `top ≤ line < top + 8` (R174). -/
def spriteOnLine (line : Nat) (e : SpriteEntry) : Bool :=
  decide (spriteTop e ≤ (line : Int) ∧ (line : Int) < spriteTop e + 8)

/-- `r = line − top`, `7 − r` under `VFLIP` (R175). -/
def spriteRowInTile (line : Nat) (e : SpriteEntry) : U3 :=
  let r : U3 := BitVec.ofNat 3 ((line : Int) - spriteTop e).toNat
  if e.vFlip then 7 - r else r

/-- `sx = x − 8 + c`, an integer (R177, R16). -/
def spriteColumn (e : SpriteEntry) (c : Nat) : Int := (e.x.toNat : Int) - 8 + (c : Int)

/-- Steps 5 to 8 for column `c` of one sprite (R177 to R181). `row` is already flipped. -/
def spritePixel (p : SpritePass) (e : SpriteEntry) (row : Row) (s : State) (c : Nat) : State :=
  let sx := spriteColumn e c
  let raw := rowPixel row (BitVec.ofNat 3 c)
  if sx < 0 ∨ 160 ≤ sx then s
  else if raw = 0 then s
  else if s.claim.read sx.toNat then s
  else if e.bgPri ∧ s.raw.read (pixAddr sx.toNat p.line) ≠ 0 then s
  else
    claimColumn sx.toNat
      (writePixel .spr sx.toNat p.line (shade (palEntry (if e.palSel then p.pal1 else p.pal0) raw)) s)

/-- Steps 2 to 8 for table entry `n` (R174 to R181): the row is fetched before any column is examined, and flipped on a
local copy (R176). -/
def spriteEntry (p : SpritePass) (s : State) (n : Nat) : State :=
  let e := s.env.sprite n
  if spriteOnLine p.line e then
    let f := getRow e.tile (spriteRowInTile p.line e) .sprsrc s
    let row := if e.hFlip then reverseRow f.1 else f.1
    (List.range 8).foldl (spritePixel p e row) f.2
  else s

/-- The pass, `n = 0, 1, ..., 39`, from an empty claim mask (R170, R173, R174). -/
def renderSprites (line : Nat) (s : State) : State :=
  (List.range Config.nSprites).foldl (spriteEntry (spritePass line s.env)) (clearClaim s)

/-- Row `line` of a surface made transparent (R172). -/
def transparentRow (line : Nat) (m : Memory Rgba) : Memory Rgba :=
  (List.range Config.screenW).foldl (fun m x => m.write (pixAddr x line) 0) m

/-- Row `line` of `SPS` made transparent (R172). -/
def clearSpriteRow (line : Nat) (s : State) : State := { s with sps := transparentRow line s.sps }

/-- `SPRLINE line` (R170): a no-op outside `[0,144)` (R171), a row clear while sprites are disabled (R172), else a pass. -/
def execSprline (line : Int) (s : State) : Host.Outcome State Fault Refusal :=
  unlessFaulted s fun s =>
    respond 0
      (if visibleLine line then
        if s.env.spritesEnabled then renderSprites line.toNat s else clearSpriteRow line.toNat s
      else s)

end Sys2Proof.Machine
end

