-- ==== Sys2Proof/Machine/Dispatch.lean ====
section
/-! DEFINITION. One arm per operation of the command port (R84). -/

namespace Sys2Proof.Machine

def exec (i : Instr) (s : State) : Host.Outcome State Fault Refusal :=
  match i with
  | .decrow lo hi => Sys2Proof.Machine.execDecrow lo hi s
  | .decpal byte => Sys2Proof.Machine.execDecpal byte s
  | .getrow tile row src => Sys2Proof.Machine.execGetrow tile row src s
  | .inval => Sys2Proof.Machine.execInval s
  | .wrap scroll offset => Sys2Proof.Machine.execWrap scroll offset s
  | .bgline line => Sys2Proof.Machine.execBgline line s
  | .sprline line => Sys2Proof.Machine.execSprline line s
  | .clrframe => Sys2Proof.Machine.execClrframe s
  | .clear surf => Sys2Proof.Machine.execClear surf s
  | .wrpix surf x y rgba => Sys2Proof.Machine.execWrpix surf x y rgba s
  | .rdpix surf x y => Sys2Proof.Machine.execRdpix surf x y s

end Sys2Proof.Machine
end

