-- ==== Sys2Proof/Machine/CommandPort.lean ====
section
/-! DEFINITION. What one item of the serial stream does (R61, R80): a command word is decoded and executed or raises
`ILLEGAL_COMMAND`; a notification is one `INVAL`; the collaborator changes `Env`; reset. -/

namespace Sys2Proof.Machine

/-- One command word on `cmd` (R81, R90, R218). -/
def runWord (w : CmdWord) (s : State) : Host.Outcome State Fault Refusal :=
  match decode w with
  | .ok i => exec i s
  | .error _ => illegalCommand s

/-- One item of the stream. A notification has "exactly the effect of one `INVAL` command" (R136). -/
def runEvent (e : Event) (s : State) : Host.Outcome State Fault Refusal :=
  match e with
  | .command w => runWord w s
  | .notify => exec .inval s
  | .collaborator env => .next (setEnv env s)
  | .reset => .next (resetBlock s)

/-- Take the next item and run it; with nothing presented the block is idle and keeps all its state (R232, R241). -/
def runNext (s : State) : Host.Outcome State Fault Refusal :=
  match s.pending with
  | [] => .next s
  | e :: rest => runEvent e (setPending rest s)

end Sys2Proof.Machine
end

