-- ==== Sys2Proof/Machine/Step.lean ====
section
/-! DEFINITION. One step: the next item of the stream, executed to completion (R59, R61). -/

namespace Sys2Proof.Machine

/-- `step` of R38, over the stream and the environment that `State` holds. -/
def step (s : State) : Host.Outcome State Fault Refusal := runNext s

/-- The command word placed first in the stream, where `step` takes its next item (R61, assumption 3). -/
def State.withFetchWord (s : State) (nbits w : Nat) : State :=
  { s with pending := .command (BitVec.ofNat 64 (w % 2 ^ nbits)) :: s.pending }

end Sys2Proof.Machine
end

