-- ==== Sys2Proof/Machine/Assembler.lean ====
section
/-! DEFINITION. The textual form of a command (R93) and the pseudo-instructions (R94). Neither is hardware; a step reads words. -/

namespace Sys2Proof.Machine

/-- `bg` or `spr` (R93). -/
def surfText : Surf → String
  | .bg => "bg"
  | .spr => "spr"

/-- `bg` or `spr` as the source of `getrow` (R93). -/
def srcText : Src → String
  | .bgsrc => "bg"
  | .sprsrc => "spr"

/-- Operands of a command in assembler order, separated by `, ` (R93). -/
def operandText (ops : List String) : String := String.intercalate ", " ops

/-- A number in decimal (R93). -/
def numText {w : Nat} (v : BitVec w) : String := toString v.toNat

/-- One line of assembler, numbers in decimal (R93). -/
def asm (i : Instr) : String :=
  match i with
  | .decrow lo hi => "decrow " ++ operandText [numText lo, numText hi]
  | .decpal byte => "decpal " ++ numText byte
  | .getrow tile row src => "getrow " ++ operandText [numText tile, numText row, srcText src]
  | .inval => "inval"
  | .wrap scroll offset => "wrap " ++ operandText [numText scroll, numText offset]
  | .bgline line => "bgline " ++ toString line
  | .sprline line => "sprline " ++ toString line
  | .clrframe => "clrframe"
  | .clear surf => "clear " ++ surfText surf
  | .wrpix surf x y rgba => "wrpix " ++ operandText [surfText surf, numText x, numText y, numText rgba]
  | .rdpix surf x y => "rdpix " ++ operandText [surfText surf, numText x, numText y]

/-- `line y` expands to `bgline y` then `sprline y` (R94). -/
def pseudoLine (y : Int) : List Instr := [.bgline y, .sprline y]

/-- `frame` expands to `clrframe`, then `line 0`, ..., `line 143`: 289 commands (R94). -/
def pseudoFrame : List Instr := .clrframe :: (List.range Config.screenH).flatMap fun y => pseudoLine (y : Int)

/-! ### Reading the textual form (R93). Text is a list of characters. -/

/-- The value of one digit in a base, the letters of a hexadecimal digit in lower case. -/
def digitValue (base : Nat) (c : Char) : Option Nat :=
  let v := if '0' ≤ c ∧ c ≤ '9' then c.toNat - 48 else if 'a' ≤ c ∧ c ≤ 'f' then c.toNat - 87 else base
  if v < base then some v else none

/-- The digits of a number, the most significant first. -/
def readDigits (base : Nat) : Nat → List Char → Option Nat
  | acc, [] => some acc
  | acc, c :: rest => (digitValue base c).bind fun v => readDigits base (acc * base + v) rest

/-- "numbers are decimal, `0x` hexadecimal or `0b` binary" (R93). -/
def readNat : List Char → Option Nat
  | [] => none
  | ['0', 'x'] => none
  | ['0', 'b'] => none
  | '0' :: 'x' :: digits => readDigits 16 0 digits
  | '0' :: 'b' :: digits => readDigits 2 0 digits
  | digits => readDigits 10 0 digits

/-- A number that the operand's width holds; another is no operand of the command. -/
def readWord (width : Nat) (text : List Char) : Option (BitVec width) :=
  (readNat text).bind fun n => if n < 2 ^ width then some (BitVec.ofNat width n) else none

/-- "`line` may carry a leading minus" (R93); the number is a 16-bit two's-complement one (R88). -/
def readLine (text : List Char) : Option Int :=
  let n := match text with
    | '-' :: digits => (readNat digits).map fun n => -(n : Int)
    | digits => (readNat digits).map Int.ofNat
  n.bind fun line => if lineInRange line then some line else none

/-- `bg` or `spr`. -/
def readSurf (text : List Char) : Option Surf :=
  if text = ['b', 'g'] then some .bg else if text = ['s', 'p', 'r'] then some .spr else none

/-- `bg` or `spr` as the source of `getrow`. -/
def readSrc (text : List Char) : Option Src :=
  if text = ['b', 'g'] then some .bgsrc else if text = ['s', 'p', 'r'] then some .sprsrc else none

/-- A blank. -/
def isBlank (c : Char) : Bool := c = ' ' ∨ c = '\t' ∨ c = '\r'

/-- The text without the blanks around it. -/
def trimBlanks (text : List Char) : List Char := ((text.dropWhile isBlank).reverse.dropWhile isBlank).reverse

/-- The pieces of the text between separators. -/
def splitAtChar (sep : Char) : List Char → List (List Char)
  | [] => [[]]
  | c :: rest =>
    match splitAtChar sep rest with
    | [] => [[c]]
    | piece :: pieces => if c = sep then [] :: piece :: pieces else (c :: piece) :: pieces

/-- What a mnemonic with its operands stands for: a command (R93) or the expansion of a pseudo-instruction (R94). -/
def readCommand (mnemonic : List Char) (operands : List (List Char)) : Option (List Instr) :=
  match String.ofList mnemonic, operands with
  | "decrow", [lo, hi] => do return [.decrow (← readWord 8 lo) (← readWord 8 hi)]
  | "decpal", [byte] => do return [.decpal (← readWord 8 byte)]
  | "getrow", [tile, row, src] => do return [.getrow (← readWord 8 tile) (← readWord 3 row) (← readSrc src)]
  | "inval", [] => some [.inval]
  | "wrap", [scroll, offset] => do return [.wrap (← readWord 8 scroll) (← readWord 8 offset)]
  | "bgline", [line] => do return [.bgline (← readLine line)]
  | "sprline", [line] => do return [.sprline (← readLine line)]
  | "clrframe", [] => some [.clrframe]
  | "clear", [surf] => do return [.clear (← readSurf surf)]
  | "wrpix", [surf, x, y, rgba] => do
    return [.wrpix (← readSurf surf) (← readWord 8 x) (← readWord 8 y) (← readWord 32 rgba)]
  | "rdpix", [surf, x, y] => do return [.rdpix (← readSurf surf) (← readWord 8 x) (← readWord 8 y)]
  | "line", [y] => do return pseudoLine (← readLine y)
  | "frame", [] => some pseudoFrame
  | _, _ => none

/-- One line of assembler: "mnemonics and keywords are case-insensitive", "`;` starts a comment"; an empty line has no command
(R93). `none` where the text is no command. -/
def assembleLine (text : List Char) : Option (List Instr) :=
  let body := trimBlanks ((text.takeWhile (· ≠ ';')).map Char.toLower)
  let mnemonic := body.takeWhile fun c => !isBlank c
  let rest := trimBlanks (body.drop mnemonic.length)
  if body = [] then some []
  else readCommand mnemonic (if rest = [] then [] else (splitAtChar ',' rest).map trimBlanks)

/-- A program, one command per line (R93), as the command words to present on `cmd`. -/
def assembleText (text : List Char) : Option (List CmdWord) := do
  let lines ← (splitAtChar '\n' text).mapM assembleLine
  return lines.flatten.map encode

end Sys2Proof.Machine
end

