-- ==== Sys2Proof/Machine/Ports.lean ====
section
/-! DEFINITION. How values travel on the block's ports (R52 to R55, R80): the accessor channels and the byte view of a surface.
No step depends on these: a step reads `Env` itself (R80). -/

namespace Sys2Proof.Machine

/-- `{hi, lo}` on `acc_bgrow` and `acc_sprrow`: bits `[7:0]` the low plane, `[15:8]` the high plane (R53). -/
def BytePair.onChannel (b : BytePair) : BitVec 16 := b.hi ++ b.lo

/-- The pair read back from the channel (R53). -/
def BytePair.ofChannel (v : BitVec 16) : BytePair := ⟨v.extractLsb' 0 8, v.extractLsb' 8 8⟩

/-- `{attr, tile, x, y}` on `acc_sprite` (R54). -/
def SpriteEntry.onChannel (e : SpriteEntry) : BitVec 32 := e.attr ++ e.tile ++ e.x ++ e.y

/-- The record read back from the channel (R54). -/
def SpriteEntry.ofChannel (v : BitVec 32) : SpriteEntry :=
  ⟨v.extractLsb' 0 8, v.extractLsb' 8 8, v.extractLsb' 16 8, v.extractLsb' 24 8⟩

/-- The 10-bit address `{gridY, gridX}` on `acc_tilemap` (R55). -/
def tileMapAddress (gx gy : U5) : BitVec 10 := gy ++ gx

/-- The 11-bit address `{t, r}` on `acc_bgrow` and `acc_sprrow` (R80). -/
def rowAddress (t : Byte) (r : U3) : BitVec 11 := t ++ r

/-- The surface named by a `surf` bit (R69). -/
def State.surface (s : State) : Surf → Memory Rgba
  | .bg => s.bgs
  | .spr => s.sps

/-- A surface presented to the display sink as bytes: at offset `4 × PixAddr(x,y)` stand `R`, `G`, `B`, `A` in this order (R52). -/
def surfaceByte (s : State) (surf : Surf) (offset : Nat) : Byte :=
  ((s.surface surf).read (offset / 4)).extractLsb' (24 - 8 * (offset % 4)) 8

end Sys2Proof.Machine
end

