-- ==== Sys2Proof/Machine/Invariant.lean ====
section
/-! DEFINITION. What every step keeps: the canonical form of all arrays, the fault latch with its code, and the coherence of the
cache with the environment (R40, R64). -/

namespace Sys2Proof.Machine

/-- The collaborator's tables are in canonical form and inside their spaces (R34, R36, R37, R50). -/
abbrev Env.wf (e : Env) : Prop :=
  e.tileMap.wf Config.nCells ∧ e.bgRows.wf Config.nRows ∧ e.sprRows.wf Config.nRows ∧ e.sprites.wf Config.nSprites

/-- An item of the stream carries a well-formed environment, if it carries one. -/
def Event.wf : Event → Bool
  | .command _ => true
  | .notify => true
  | .collaborator env => decide env.wf
  | .reset => true

/-- The block's arrays are in canonical form and inside their spaces, and the cache holds nothing but what is listed (R22, R50). -/
abbrev State.arraysWf (s : State) : Prop :=
  s.bgs.wf Config.nPixels ∧ s.sps.wf Config.nPixels ∧ s.raw.wf Config.nPixels ∧ s.claim.wf Config.screenW ∧
    s.rc.wf Config.rcEntries ∧ s.rc.fill = .known none

/-- `FCODE` is 0 exactly while `FAULT = 0` and never `KEY`; the response port shows the latch (R29, R83, R216, R219). -/
abbrev State.latchWf (s : State) : Prop :=
  (s.fault = false ↔ s.fcode = .noFault) ∧ s.fcode ≠ .key ∧ (s.resp.all fun r => respFault r == s.fault) = true

/-- The invariant of the machine. -/
abbrev State.inv (s : State) : Prop :=
  s.arraysWf ∧ s.latchWf ∧ s.env.wf ∧ ∀ e ∈ s.pending, e.wf = true

/-- Every valid cache entry holds the row its source's accessor gives now (R64). -/
def State.coherent (s : State) : Prop :=
  ∀ (t : Byte) (r : U3) (src : Src) (row : Row), s.rc.read (cacheKey t r src) = some row →
    row = decodeRow (s.env.rowOf t r src).lo (s.env.rowOf t r src).hi

/-- The two environments give the same pattern rows at every argument (R64). -/
def Env.sameRows (e e' : Env) : Prop := ∀ (t : Byte) (r : U3) (src : Src), e'.rowOf t r src = e.rowOf t r src

/-- The colours anything but `WRPIX` can store (R40 item 5). -/
def isPictureColour (v : Rgba) : Prop := v = 0 ∨ ∃ i : U2, v = shade i

end Sys2Proof.Machine
end

