-- ==== Sys2Proof/Safety.lean ====
section
/-! DEFINITION. What counts as a good run (R217, R252), and the discipline R64 and R246 ask of the collaborator. -/

namespace Sys2Proof

open Machine

/-- A good state: "the state with `FAULT = 1` is never a good final state" (R217). -/
def Machine.State.good (s : State) : Prop := s.fault = false

/-- The response on the port, if there is one, has `fault = 0` (R83, R252). -/
def Machine.State.noFaultShown (s : State) : Prop := ∀ r, s.resp = some r → respFault r = false

/-- All items of the stream executed: the final state of a run (R252). -/
def runAll (s : State) : Host.Outcome State Fault Refusal := Host.Core.run Sys2Proof.core s.pending.length s

/-- The operation calls `GetRow` (R130): `GETROW`, `BGLINE`, `SPRLINE`. -/
def callsGetRow : Instr → Bool
  | .decrow _ _ => false
  | .decpal _ => false
  | .getrow _ _ _ => true
  | .inval => false
  | .wrap _ _ => false
  | .bgline _ => true
  | .sprline _ => true
  | .clrframe => false
  | .clear _ => false
  | .wrpix _ _ _ _ => false
  | .rdpix _ _ _ => false

/-- The item is an operation that calls `GetRow`. -/
def Machine.Event.callsGetRow (e : Event) : Bool :=
  match e with
  | .command w =>
    match decode w with
    | .ok i => Sys2Proof.callsGetRow i
    | .error _ => false
  | .notify => false
  | .collaborator _ => false
  | .reset => false

/-- The item drops the whole cache: the notification, the command `INVAL`, or reset (R134, R136, R240). -/
def Machine.Event.dropsCache (e : Event) : Bool :=
  match e with
  | .command w => decide (decode w = .ok .inval)
  | .notify => true
  | .collaborator _ => false
  | .reset => true

/-- The requirement of R64 and R246 on a stream, starting from environment `env` and with `dirty` saying whether a pattern row has
changed since the cache was last dropped: no operation that calls `GetRow` comes while `dirty`. -/
inductive Disciplined : Env → Bool → List Event → Prop where
  | done (env : Env) (dirty : Bool) : Disciplined env dirty []
  | drop (env : Env) (dirty : Bool) (e : Event) (rest : List Event) :
      e.dropsCache = true → Disciplined env false rest → Disciplined env dirty (e :: rest)
  | sameRows (env env' : Env) (dirty : Bool) (rest : List Event) :
      env.sameRows env' → Disciplined env' dirty rest → Disciplined env dirty (.collaborator env' :: rest)
  | newRows (env env' : Env) (dirty : Bool) (rest : List Event) :
      Disciplined env' true rest → Disciplined env dirty (.collaborator env' :: rest)
  | command (env : Env) (dirty : Bool) (w : CmdWord) (rest : List Event) :
      (Event.command w).dropsCache = false → (dirty = true → (Event.command w).callsGetRow = false) →
      Disciplined env dirty rest → Disciplined env dirty (.command w :: rest)

/-- The collaborator keeps the discipline from here on, and the cache is coherent unless the latch is set or a pattern row has
changed since the cache was last dropped (R64, R246). -/
def Machine.State.disciplined (s : State) (dirty : Bool) : Prop :=
  Disciplined s.env dirty s.pending ∧ (s.fault = false → dirty = false → s.coherent)

end Sys2Proof
end

