-- ==== Sys2Proof/Certificates/Slice0/Obligations.lean ====
section
/-! DEFINITION. The statements for the provers, in the words of the spec's rules: encodings, the step, the fault latch, the five
pure and cached components, the two line renderers, the compositor, and what every step keeps. -/

namespace Sys2Proof.Spec

open Sys2Proof Sys2Proof.Machine

/-- `lo[b] + 2 × hi[b]` (R16, R110). -/
def planeBits (p : BytePair) (b : Nat) : Nat := (p.lo.getLsbD b).toNat + 2 * (p.hi.getLsbD b).toNat

/-- `s × 2048 + t × 8 + r` (R132). -/
def keyIndex (t : Byte) (r : U3) : Src → Nat
  | .bgsrc => t.toNat * 8 + r.toNat
  | .sprsrc => 2048 + t.toNat * 8 + r.toNat

/-- The byte pair the accessor of a source gives (R130). -/
def rowBytes (env : Env) (t : Byte) (r : U3) : Src → BytePair
  | .bgsrc => env.bgRow t r
  | .sprsrc => env.sprRow t r

/-- `on(n)` of R185 for entry `e`. -/
def spriteOn (e : SpriteEntry) (line x : Nat) : Prop :=
  (e.y.toNat : Int) - 16 ≤ line ∧ (line : Int) < e.y.toNat - 8 ∧ (e.x.toNat : Int) - 8 ≤ x ∧ (x : Int) < e.x.toNat

/-- `r(n)` of R185 for entry `e`: the row of the tile, flipped where `VFLIP` says so (R175). -/
def spriteRow (e : SpriteEntry) (line : Nat) : U3 :=
  let r0 := ((line : Int) - ((e.y.toNat : Int) - 16)).toNat
  BitVec.ofNat 3 (if e.attr.getLsbD 6 then 7 - r0 else r0)

/-- `tc(n)` of R185 for entry `e`: the column of the tile, flipped where `HFLIP` says so (R176). -/
def spriteTileColumn (e : SpriteEntry) (x : Nat) : Nat :=
  let c := ((x : Int) - ((e.x.toNat : Int) - 8)).toNat
  if e.attr.getLsbD 5 then 7 - c else c

/-- `raw(n)` of R185 for entry `e`. -/
def spriteRaw (env : Env) (e : SpriteEntry) (line x : Nat) : Nat :=
  planeBits (env.sprRow e.tile (spriteRow e line)) (7 - spriteTileColumn e x)

/-- `draws(n)` of R185 for entry `e`, where `raw` is its raw intensity at column `x`. -/
def spriteShows (s : State) (e : SpriteEntry) (line x raw : Nat) : Prop :=
  spriteOn e line x ∧ raw ≠ 0 ∧ ¬(e.attr.getLsbD 7 = true ∧ s.raw.read (line * 160 + x) ≠ 0)

/-- `draws(n)` of R185. -/
def spriteDraws (s : State) (line x n : Nat) : Prop :=
  spriteShows s (s.env.sprite n) line x (spriteRaw s.env (s.env.sprite n) line x)

/-- What `GetRow` gives for a key in any state, coherent or not: the stored row, or where the entry is invalid the row that the
accessor's bytes decode to now (R130, R246). -/
def rowGiven (s : State) (t : Byte) (r : U3) (src : Src) : Row :=
  (s.rc.read (keyIndex t r src)).getD (decodeRow (rowBytes s.env t r src).lo (rowBytes s.env t r src).hi)

/-- The raw intensity of entry `e` at column `x`, from the row `GetRow` gives (R176, R178). -/
def spriteRawGiven (s : State) (e : SpriteEntry) (line x : Nat) : U2 :=
  rowPixel (rowGiven s e.tile (spriteRow e line) .sprsrc) (BitVec.ofNat 3 (spriteTileColumn e x))

/-- Entry `n` draws at column `x`, judged by the row `GetRow` gives. -/
def spriteDrawsGiven (s : State) (line x n : Nat) : Prop :=
  spriteShows s (s.env.sprite n) line x (spriteRawGiven s (s.env.sprite n) line x).toNat

/-- The tile that column `x` of background line `line` meets (R155, R157). -/
def bgTile (env : Env) (line x : Nat) : Byte :=
  env.tileAt (wrap env.scx (BitVec.ofNat 8 x)).tile (wrap env.scy (BitVec.ofNat 8 line)).tile

/-- The row of its tile that background line `line` meets (R155). -/
def bgTileRow (env : Env) (line : Nat) : U3 := (wrap env.scy (BitVec.ofNat 8 line)).within

end Sys2Proof.Spec

open Sys2Proof Sys2Proof.Machine

/-! ### Encodings -/

/-- R81, R82, R84, R88, R89: every operation survives its encoding, with every operand value the encoding admits. -/
def Obligations.DecodingAnEncodingGivesTheInstruction : Prop :=
  ∀ i : Instr, i.wellFormed = true → decode (encode i) = .ok i

/-- R82, R90, R92: each legal word has one meaning, and that meaning's encoding is the word. -/
def Obligations.EncodingADecodingGivesTheWord : Prop :=
  ∀ (w : CmdWord) (i : Instr), decode w = .ok i → encode i = w ∧ i.wellFormed = true

/-- R90, INDEX.md: a row of the opcode table selects a word exactly when the word decodes to that row's operation. -/
def Obligations.ATableRowSelectsExactlyItsWords : Prop :=
  ∀ row ∈ opcodeTable, ∀ w : CmdWord,
    w &&& row.mask = row.pattern ↔ ∃ i, decode w = .ok i ∧ i.mnemonic = row.mnemonic

/-- R95: the worked encodings, both ways, and the three illegal words. -/
def Obligations.WorkedEncodings : Prop :=
  (∀ p ∈ ([(.decrow 0x3C 0x00, 0x0100003C00000000), (.decrow 0x55 0x33, 0x0100335500000000),
        (.decpal 0xE4, 0x020000E400000000), (.getrow 5 3 .sprsrc, 0x03000B0500000000),
        (.getrow 255 7 .bgsrc, 0x030007FF00000000), (.inval, 0x0400000000000000),
        (.wrap 255 1, 0x0500FF0100000000), (.bgline 0, 0x0600000000000000),
        (.bgline 143, 0x0600008F00000000), (.bgline (-1), 0x0600FFFF00000000),
        (.sprline 7, 0x0700000700000000), (.clrframe, 0x0800000000000000),
        (.clear .spr, 0x0900000100000000), (.wrpix .spr 159 143 0x12345678, 0x0A018F9F12345678),
        (.rdpix .bg 0 0, 0x0B00000000000000)] : List (Instr × CmdWord)), encode p.1 = p.2 ∧ decode p.2 = .ok p.1) ∧
    decode 0x0000000000000000 = .error (.unassignedOp 0x00) ∧
    decode 0x0400000100000000 = .error (.mustBeZeroSet 0x04) ∧
    decode 0x0C00000000000000 = .error (.unassignedOp 0x0C)

/-! ### The step -/

/-- R61, R81: a step takes the next command word and runs exactly the operation it decodes to. -/
def Obligations.AStepRunsTheDecodedInstruction : Prop :=
  ∀ (s : State) (w : CmdWord) (rest : List Event) (i : Instr), s.pending = .command w :: rest → decode w = .ok i →
    step s = exec i { s with pending := rest }

/-- R136: a write-notification has exactly the effect of one `INVAL` at its place in the stream. That it also answers on the
response port as `INVAL` does, and is refused while `FAULT = 1`, is the model's reading (assumption 6). -/
def Obligations.ANotificationIsOneInval : Prop :=
  ∀ (s : State) (rest : List Event), s.pending = .notify :: rest →
    step s = exec .inval { s with pending := rest } ∧
      step s = step { s with pending := .command 0x0400000000000000 :: rest }

/-- R38, R60, R232, R241: the collaborator changes `Env` and nothing else; with nothing presented the block keeps all its state.
The stream as a list in `State`, and the idle step, are the model's form (assumption 3). That one item replaces all of `Env`
(assumption 11), and that it leaves the response port as it was (assumption 5), are the model's choices. -/
def Obligations.CollaboratorAndIdleSteps : Prop :=
  (∀ (s : State) (env : Env) (rest : List Event), s.pending = .collaborator env :: rest →
      step s = .next { s with pending := rest, env := env }) ∧
    ∀ s : State, s.pending = [] → step s = .next s

/-- R39, R240. The contents of `BGS`, `SPS`, `RAW` and `CLAIM` are the model's free values (assumption 1), numbered by the
model's own field `draws`; the empty response port (assumption 5), and that the items still to come stay (assumption 16), are
the model's choices. -/
def Obligations.ResetGivesTheResetState : Prop :=
  ∀ (s : State) (rest : List Event), s.pending = .reset :: rest →
    ∃ t, step s = .next t ∧ (∀ k, t.rc.read k = none) ∧ t.fault = false ∧ t.fcode = .noFault ∧ t.env = s.env ∧
      t.pending = rest ∧ t.resp = none ∧ t.draws = s.draws + 1 ∧
      (∀ a, t.bgs.read a = Config.unspecified Rgba .bgs s.draws a) ∧
      (∀ a, t.sps.read a = Config.unspecified Rgba .sps s.draws a) ∧
      (∀ a, t.raw.read a = Config.unspecified U2 .raw s.draws a) ∧
      ∀ a, t.claim.read a = Config.unspecified Bool .claim s.draws a

/-! ### The fault latch -/

/-- R218, R90: a word no row of the opcode table selects executes nothing and latches `ILLEGAL_COMMAND`; these are exactly the
words with an unassigned `op` or a set must-be-zero bit. -/
def Obligations.IllegalWordsLatchIllegalCommand : Prop :=
  (∀ (s : State) (w : CmdWord) (rest : List Event), s.pending = .command w :: rest → s.fault = false →
      (∀ row ∈ opcodeTable, w &&& row.mask ≠ row.pattern) →
      step s = .next { s with pending := rest, fault := true, fcode := .illegalCommand, resp := some 0x100000003 }) ∧
    ∀ w : CmdWord, (opField w = 0 ∨ 0x0C ≤ opField w ∨
        ∃ f, formatOf (opField w) = some f ∧ w &&& (~~~f.operandBits &&& 0x00FFFFFFFFFFFFFF) ≠ 0) ↔
      ∀ row ∈ opcodeTable, w &&& row.mask ≠ row.pattern

/-- R220: while `FAULT = 1` every command word, legal or not, is refused and changes nothing but the response. -/
def Obligations.TheLatchRefusesEveryCommand : Prop :=
  (∀ (s : State) (w : CmdWord) (rest : List Event), s.pending = .command w :: rest → s.fault = true →
      step s = .next { s with pending := rest, resp := some (1#1 ++ (0#30 ++ s.fcode.bits)) }) ∧
    ∀ (i : Instr) (s : State), s.fault = true →
      exec i s = .next { s with resp := some (1#1 ++ (0#30 ++ s.fcode.bits)) }

/-- R200, R203, R217: a pixel outside a surface is not accessed; `EXTENT` is latched. Tried at both edges by the witnesses. -/
def Obligations.PixelsOutsideTheSurfaceLatchExtent : Prop :=
  ∀ (surf : Surf) (x y : Byte) (rgba : Rgba) (s : State), s.fault = false → (160 ≤ x.toNat ∨ 144 ≤ y.toNat) →
    exec (.wrpix surf x y rgba) s =
        .next { s with fault := true, fcode := .extent, resp := some 0x100000001 } ∧
      exec (.rdpix surf x y) s =
        .next { s with fault := true, fcode := .extent, resp := some 0x100000001 }

/-- R222: a command that raises a fault changes nothing but the latch and the response, and only `WRPIX` and `RDPIX` among
the operations can raise one. -/
def Obligations.FaultsArePrecise : Prop :=
  (∀ (s t : State) (w : CmdWord) (rest : List Event), s.pending = .command w :: rest → s.fault = false →
      step s = .next t → t.fault = true →
      t = { s with pending := rest, fault := true, fcode := t.fcode, resp := t.resp }) ∧
    ∀ (i : Instr) (s t : State), s.fault = false → exec i s = .next t → t.fault = true →
      ∃ surf x y, (∃ rgba, i = .wrpix surf x y rgba) ∨ i = .rdpix surf x y

/-- R224: only reset clears `FAULT`, and while it is latched no second fault is taken. -/
def Obligations.OnlyResetClearsTheLatch : Prop :=
  (∀ s t : State, s.fault = true → step s = .next t →
      (t.fault = false → ∃ rest, s.pending = .reset :: rest) ∧ (t.fault = true → t.fcode = s.fcode)) ∧
    ∀ (s : State) (rest : List Event), s.pending = .reset :: rest →
      ∃ t, step s = .next t ∧ t.fault = false ∧ t.fcode = .noFault

/-- R83: after a command word the response shows the latch, and the fault code when it is set. -/
def Obligations.TheResponseShowsTheLatch : Prop :=
  ∀ (s : State) (w : CmdWord) (rest : List Event), s.pending = .command w :: rest →
    ∃ t r, step s = .next t ∧ t.resp = some r ∧ r.getLsbD 32 = t.fault ∧
      (t.fault = true → r.extractLsb' 0 32 = 0#30 ++ t.fcode.bits)

/-! ### Tile decoder, palette resolver, scroll mapper -/

/-- R110: lane `k` of a decoded row. -/
def Obligations.DecodeRowLanes : Prop :=
  ∀ (lo hi : Byte) (k : Fin 8),
    (decodeRow lo hi)[k].toNat = (lo.getLsbD (7 - k.val)).toNat + 2 * (hi.getLsbD (7 - k.val)).toNat

/-- R113, its seven laws and the independence of the lanes. -/
def Obligations.DecodeRowLaneLaws : Prop :=
  (∀ (lo hi lo' hi' : Byte) (k : Fin 8), lo.getLsbD (7 - k.val) = lo'.getLsbD (7 - k.val) →
      hi.getLsbD (7 - k.val) = hi'.getLsbD (7 - k.val) → (decodeRow lo hi)[k] = (decodeRow lo' hi')[k]) ∧
    (∀ (lo hi : Byte) (k : Fin 8), (decodeRow lo hi)[k].toNat ≤ 3) ∧
    (∀ (lo hi : Byte) (k : Fin 8), lo.getLsbD (7 - k.val) = (decodeRow lo hi)[k].getLsbD 0 ∧
      hi.getLsbD (7 - k.val) = (decodeRow lo hi)[k].getLsbD 1) ∧
    (∀ lo hi lo' hi' : Byte, decodeRow lo hi = decodeRow lo' hi' → lo = lo' ∧ hi = hi') ∧
    (∀ row : Row, ∃ lo hi, decodeRow lo hi = row) ∧
    (∀ (b : Byte) (k : Fin 8), (decodeRow b 0)[k].toNat = (b.getLsbD (7 - k.val)).toNat ∧
      (decodeRow 0 b)[k].toNat = 2 * (b.getLsbD (7 - k.val)).toNat ∧
      (decodeRow b b)[k].toNat = 3 * (b.getLsbD (7 - k.val)).toNat) ∧
    (∀ (lo hi : Byte) (k : Fin 8), (decodeRow hi lo)[k].toNat =
      (hi.getLsbD (7 - k.val)).toNat + 2 * (lo.getLsbD (7 - k.val)).toNat) ∧
    (∀ (lo hi : Byte) (k : Fin 8), (decodeRow lo.reverse hi.reverse)[k] = (decodeRow lo hi)[7 - k.val]) ∧
    ∀ (lo hi : Byte) (b : Fin 8), (packRow (decodeRow lo hi)).getLsbD (2 * b.val + 1) = hi.getLsbD b.val ∧
      (packRow (decodeRow lo hi)).getLsbD (2 * b.val) = lo.getLsbD b.val

/-- R111, R113: `DECROW` answers the bit interleave of its operands and changes nothing else. -/
def Obligations.DecrowAnswersTheInterleave : Prop :=
  ∀ (lo hi : Byte) (s : State), s.fault = false →
    ∃ data : BitVec 16, exec (.decrow lo hi) s = .next { s with resp := some (0#1 ++ (0#16 ++ data)) } ∧
      ∀ b < 8, data.getLsbD (2 * b) = lo.getLsbD b ∧ data.getLsbD (2 * b + 1) = hi.getLsbD b

/-- R85: `PackRow` puts pixel `k` in bits `[15 − 2k : 14 − 2k]`, and `UnpackRow` is its inverse. -/
def Obligations.PackRowPlacesThePixels : Prop :=
  (∀ (row : Row) (k : Fin 8), (packRow row).extractLsb' (14 - 2 * k.val) 2 = row[k]) ∧
    (∀ row : Row, unpackRow (packRow row) = row) ∧ (∀ v : BitVec 16, packRow (unpackRow v) = v) ∧
    packRow #v[0, 0, 1, 1, 1, 1, 0, 0] = 0x0550 ∧ packRow #v[0, 1, 2, 3, 0, 1, 2, 3] = 0x1B1B

/-- R120: field `i` of a palette byte is bits `2i` (weight 1) and `2i + 1` (weight 2). -/
def Obligations.DecodePaletteFields : Prop :=
  ∀ (b : Byte) (i : Fin 4),
    (decodePalette b)[i].toNat = (b.getLsbD (2 * i.val)).toNat + 2 * (b.getLsbD (2 * i.val + 1)).toNat

/-- R124, its three laws and the independence of the lanes. -/
def Obligations.PaletteLaneLaws : Prop :=
  (∀ (b b' : Byte) (i : Fin 4), b.getLsbD (2 * i.val) = b'.getLsbD (2 * i.val) →
      b.getLsbD (2 * i.val + 1) = b'.getLsbD (2 * i.val + 1) → (decodePalette b)[i] = (decodePalette b')[i]) ∧
    (∀ (b : Byte) (i : Fin 4), (decodePalette b)[i].toNat ≤ 3) ∧
    (∀ b b' : Byte, decodePalette b = decodePalette b' → b = b') ∧
    (∀ pal : Pal, ∃ b, decodePalette b = pal) ∧
    (∀ b : Byte, packPal (decodePalette b) = b) ∧
    ∀ (b : Byte) (i : Fin 4), (decodePalette b)[i].toNat = b.toNat / 4 ^ i.val % 4

/-- R86, R122: the response data of `DECPAL` is its operand; nothing else changes. -/
def Obligations.DecpalAnswersItsByte : Prop :=
  ∀ (b : Byte) (s : State), s.fault = false →
    exec (.decpal b) s = .next { s with resp := some (0#1 ++ (0#24 ++ b)) }

/-- R7, R23, R25, R30: every shade is its 24-bit colour with alpha `0xFF`, none is transparent, and the four are distinct and
ordered from the lightest to the darkest. The order is by the table's own measure, which the spec leaves open and of which the
model asks that more of a channel never makes a colour darker (assumption 4): so a darker shade has less of some channel. -/
def Obligations.ShadesAreOpaqueDistinctAndOrdered : Prop :=
  ∀ i j : U2, (shade i).extractLsb' 0 8 = 0xFF ∧ (shade i).extractLsb' 8 24 = Config.shadeTable.rgb[i.toNat]'i.isLt ∧
    shade i ≠ 0 ∧ (shade i = shade j → i = j) ∧
    (i < j →
      Config.shadeTable.lightness ((shade j).extractLsb' 8 24) < Config.shadeTable.lightness ((shade i).extractLsb' 8 24) ∧
      ((shade j).extractLsb' 24 8 < (shade i).extractLsb' 24 8 ∨ (shade j).extractLsb' 16 8 < (shade i).extractLsb' 16 8 ∨
        (shade j).extractLsb' 8 8 < (shade i).extractLsb' 8 8))

/-- R145: the wrapped coordinate, its tile and the offset within it. -/
def Obligations.WrapFormula : Prop :=
  ∀ scroll offset : Byte, (wrap scroll offset).w.toNat = (scroll.toNat + offset.toNat) % 256 ∧
    (wrap scroll offset).tile.toNat = (scroll.toNat + offset.toNat) % 256 / 8 ∧
    (wrap scroll offset).within.toNat = (scroll.toNat + offset.toNat) % 256 % 8 ∧
    (wrap scroll offset).w.toNat = 8 * (wrap scroll offset).tile.toNat + (wrap scroll offset).within.toNat

/-- R148, its seven laws. -/
def Obligations.WrapLaws : Prop :=
  (∀ s o : Byte, (wrap s o).w.toNat = (s.toNat + o.toNat) % 256) ∧
    (∀ s o : Byte, wrap s o = wrap o s) ∧
    (∀ b : Byte, (wrap 0 b).w = b ∧ (wrap b 0).w = b) ∧
    (∀ s o d : Byte, wrap s o = wrap (s + d) (o - d)) ∧
    (∀ s o : Byte, (wrap s o).w = 255 → (wrap s o).tile = 31 ∧ (wrap s o).within = 7 ∧
      (wrap s (o + 1)).w = 0 ∧ (wrap s (o + 1)).tile = 0 ∧ (wrap s (o + 1)).within = 0) ∧
    (∀ s o : Byte, (wrap s (o + 1)).within = (wrap s o).within + 1 ∧
      (wrap s (o + 1)).tile = if (wrap s o).within = 7 then (wrap s o).tile + 1 else (wrap s o).tile) ∧
    (∀ scx : Byte, ((List.range 160).map fun x => (wrap scx (BitVec.ofNat 8 x)).tile).toFinset.card =
      if scx.toNat % 8 = 0 then 20 else 21)

/-- R87, R146: `WRAP` answers `{within, tile, w}` and changes nothing else. -/
def Obligations.WrapAnswersTheTriple : Prop :=
  ∀ (scroll offset : Byte) (s : State), s.fault = false →
    ∃ data : BitVec 16, exec (.wrap scroll offset) s = .next { s with resp := some (0#1 ++ (0#16 ++ data)) } ∧
      data.toNat = (scroll.toNat + offset.toNat) % 256 + 256 * ((scroll.toNat + offset.toNat) % 256 / 8) +
        8192 * ((scroll.toNat + offset.toNat) % 8)

/-! ### Tile-row cache -/

/-- R27, R132: each key has a place of its own below 4096, and every place is some key's. -/
def Obligations.CacheKeysFillTheCache : Prop :=
  (∀ (t t' : Byte) (r r' : U3) (src src' : Src), cacheKey t r src = Spec.keyIndex t r src ∧ cacheKey t r src < 4096 ∧
      (cacheKey t r src = cacheKey t' r' src' → t = t' ∧ r = r' ∧ src = src')) ∧
    ∀ k < 4096, ∃ t r src, cacheKey t r src = k

/-- R130: a hit returns the stored row and changes nothing; a miss decodes what the source's accessor gives, stores it in its own
place and returns it. -/
def Obligations.GetRowHitsOrFills : Prop :=
  ∀ (t : Byte) (r : U3) (src : Src) (s : State),
    (∀ row, s.rc.read (Spec.keyIndex t r src) = some row → getRow t r src s = (row, s)) ∧
      (s.rc.read (Spec.keyIndex t r src) = none →
        ∃ rc, getRow t r src s =
            (decodeRow (Spec.rowBytes s.env t r src).lo (Spec.rowBytes s.env t r src).hi, { s with rc := rc }) ∧
          rc.read (Spec.keyIndex t r src) =
            some (decodeRow (Spec.rowBytes s.env t r src).lo (Spec.rowBytes s.env t r src).hi) ∧
          ∀ k, k ≠ Spec.keyIndex t r src → rc.read k = s.rc.read k)

/-- R131: `GETROW` completes with the packed row; only its own cache entry can change. -/
def Obligations.GetrowAnswersTheRow : Prop :=
  ∀ (tile : Byte) (r : U3) (src : Src) (s : State), s.fault = false →
    ∃ t row, exec (.getrow tile r src) s = .next t ∧
      (s.rc.read (Spec.keyIndex tile r src) = some row ∨ s.rc.read (Spec.keyIndex tile r src) = none ∧
        row = decodeRow (Spec.rowBytes s.env tile r src).lo (Spec.rowBytes s.env tile r src).hi) ∧
      t = { s with rc := t.rc, resp := some (0#1 ++ (0#16 ++ packRow row)) } ∧
      t.rc.read (Spec.keyIndex tile r src) = some row ∧
      ∀ k, k ≠ Spec.keyIndex tile r src → t.rc.read k = s.rc.read k

/-- R133: once a key is filled, a second `GetRow` for it hits and returns the same row, whatever the collaborator did since. -/
def Obligations.TheSecondGetRowHits : Prop :=
  ∀ (t : Byte) (r : U3) (src : Src) (s : State) (env : Env),
    getRow t r src { (getRow t r src s).2 with env := env } =
      ((getRow t r src s).1, { (getRow t r src s).2 with env := env })

/-- R134: `INVAL` drops every entry and nothing else, the next `GetRow` for any key decodes the accessor's bytes anew, and it is
idempotent. -/
def Obligations.InvalDropsEveryEntry : Prop :=
  ∀ s : State, s.fault = false →
    ∃ t, exec .inval s = .next t ∧ t = { s with rc := t.rc, resp := some 0 } ∧ (∀ k, t.rc.read k = none) ∧
      (∀ (tile : Byte) (r : U3) (src : Src), (getRow tile r src t).1 =
        decodeRow (Spec.rowBytes s.env tile r src).lo (Spec.rowBytes s.env tile r src).hi) ∧
      exec .inval t = .next t

/-- R138: a valid entry stays as it is across every step until the cache is dropped. -/
def Obligations.EntriesLiveUntilTheCacheIsDropped : Prop :=
  ∀ (s t : State) (k : Nat) (row : Row), s.rc.read k = some row → step s = .next t →
    t.rc.read k = some row ∨ ∃ e rest, s.pending = e :: rest ∧ e.dropsCache = true

/-- R40 item 1: an entry that becomes valid in a step holds what its source's accessor gives at that step. -/
def Obligations.NewEntriesHoldTheRowReadNow : Prop :=
  ∀ (s t : State) (tile : Byte) (r : U3) (src : Src) (row : Row), step s = .next t →
    s.rc.read (Spec.keyIndex tile r src) = none → t.rc.read (Spec.keyIndex tile r src) = some row →
    row = decodeRow (Spec.rowBytes s.env tile r src).lo (Spec.rowBytes s.env tile r src).hi

/-! ### Background line renderer -/

/-- R159: outside `[0,144)` `BGLINE` changes no state and is no fault; the field `0xFFFF` is line −1. -/
def Obligations.BglineOffScreenIsANoOp : Prop :=
  (∀ (line : Int) (s : State), s.fault = false → (line < 0 ∨ 144 ≤ line) →
      exec (.bgline line) s = .next { s with resp := some 0 }) ∧
    decode 0x0600FFFF00000000 = .ok (.bgline (-1))

/-- R155, R161: `BGLINE` completes, and writes nothing but its row of `BGS` and `RAW` and background entries of the cache. -/
def Obligations.BglineFrame : Prop :=
  ∀ (line : Int) (s : State), s.fault = false → 0 ≤ line → line < 144 →
    ∃ t, exec (.bgline line) s = .next t ∧
      t = { s with bgs := t.bgs, raw := t.raw, rc := t.rc, resp := some 0 } ∧
      (∀ a, (a < line.toNat * 160 ∨ line.toNat * 160 + 160 ≤ a) →
        t.bgs.read a = s.bgs.read a ∧ t.raw.read a = s.raw.read a) ∧
      ∀ k, (s.rc.read k ≠ none ∨ 2048 ≤ k) → t.rc.read k = s.rc.read k

/-- R163: the closed form of every background pixel, in a state whose cache is coherent (R64). For every other state see
`LinesDrawTheRowsGetRowGives`. -/
def Obligations.BglinePixelFormula : Prop :=
  ∀ (line : Int) (s : State), s.fault = false → s.coherent → 0 ≤ line → line < 144 →
    ∃ t, exec (.bgline line) s = .next t ∧ ∀ x < 160,
      let bgX := (s.env.scx.toNat + x) % 256
      let bgY := (s.env.scy.toNat + line.toNat) % 256
      let pair := s.env.bgRow (s.env.tileAt (BitVec.ofNat 5 (bgX / 8)) (BitVec.ofNat 5 (bgY / 8))) (BitVec.ofNat 3 (bgY % 8))
      let raw := Spec.planeBits pair (7 - bgX % 8)
      (t.raw.read (line.toNat * 160 + x)).toNat = raw ∧
        t.bgs.read (line.toNat * 160 + x) = shade (s.env.bgp.extractLsb' (2 * raw) 2)

/-- R130, R155, R170, R179, R246: with any cache, coherent or stale, both line operations draw from the row `GetRow` gives for
each key in the state they start from: the stored row where the entry is valid, whatever the accessor gives now, and the decoded
bytes of now where it is not. -/
def Obligations.LinesDrawTheRowsGetRowGives : Prop :=
  (∀ (line : Int) (s : State), s.fault = false → 0 ≤ line → line < 144 →
      ∃ t, exec (.bgline line) s = .next t ∧ ∀ x < 160,
        let raw := rowPixel (Spec.rowGiven s (Spec.bgTile s.env line.toNat x) (Spec.bgTileRow s.env line.toNat) .bgsrc)
          (wrap s.env.scx (BitVec.ofNat 8 x)).within
        t.raw.read (line.toNat * 160 + x) = raw ∧ t.bgs.read (line.toNat * 160 + x) = colour s.env.bgp raw) ∧
    ∀ (line : Int) (s : State), s.fault = false → 0 ≤ line → line < 144 → s.env.spritesEnabled = true →
      ∃ t, exec (.sprline line) s = .next t ∧ ∀ x < 160,
        (∀ m < 40, Spec.spriteDrawsGiven s line.toNat x m → (∀ n < m, ¬Spec.spriteDrawsGiven s line.toNat x n) →
          t.sps.read (line.toNat * 160 + x) =
            colour (if (s.env.sprite m).attr.getLsbD 4 then s.env.obp1 else s.env.obp0)
              (Spec.spriteRawGiven s (s.env.sprite m) line.toNat x)) ∧
        ((∀ n < 40, ¬Spec.spriteDrawsGiven s line.toNat x n) →
          t.sps.read (line.toNat * 160 + x) = s.sps.read (line.toNat * 160 + x)) ∧
        (t.claim.read x = true ↔ ∃ n < 40, Spec.spriteDrawsGiven s line.toNat x n)

/-- R130, R157, R174, R175, R176: after a line operation an entry is valid exactly when it was before or the line uses it: a
column of the background line, or a table entry on the line, with its row flipped first and its columns on the screen or not. -/
def Obligations.LinesFillTheRowsTheyMeet : Prop :=
  (∀ (line : Int) (s t : State), s.fault = false → 0 ≤ line → line < 144 → exec (.bgline line) s = .next t →
      ∀ k, t.rc.read k ≠ none ↔ s.rc.read k ≠ none ∨
        ∃ x < 160, k = Spec.keyIndex (Spec.bgTile s.env line.toNat x) (Spec.bgTileRow s.env line.toNat) .bgsrc) ∧
    ∀ (line : Int) (s t : State), s.fault = false → 0 ≤ line → line < 144 → s.env.spritesEnabled = true →
      exec (.sprline line) s = .next t →
      ∀ k, t.rc.read k ≠ none ↔ s.rc.read k ≠ none ∨
        ∃ n < 40, ((s.env.sprite n).y.toNat : Int) - 16 ≤ line ∧ line < ((s.env.sprite n).y.toNat : Int) - 8 ∧
          k = Spec.keyIndex (s.env.sprite n).tile (Spec.spriteRow (s.env.sprite n) line.toNat) .sprsrc

/-- R160: a second `BGLINE` with unchanged inputs produces an identical row and fills nothing. -/
def Obligations.BglineIsIdempotent : Prop :=
  ∀ (line : Int) (s t u : State), s.fault = false → exec (.bgline line) s = .next t → exec (.bgline line) t = .next u →
    (∀ a, u.bgs.read a = t.bgs.read a ∧ u.raw.read a = t.raw.read a) ∧ u.rc = t.rc

/-- R155, R161: the row `BGLINE` draws depends on the cache and on `scx`, `scy`, `bgp`, the tile map and the background rows,
and on nothing else in the state. -/
def Obligations.BglineReadsOnlyItsInputs : Prop :=
  ∀ (line : Int) (s s' t t' : State), s.fault = false → s'.fault = false → s'.rc = s.rc →
    s'.env.scx = s.env.scx → s'.env.scy = s.env.scy → s'.env.bgp = s.env.bgp → s'.env.tileMap = s.env.tileMap →
    s'.env.bgRows = s.env.bgRows → 0 ≤ line → line < 144 →
    exec (.bgline line) s = .next t → exec (.bgline line) s' = .next t' →
    t'.rc = t.rc ∧ ∀ x < 160, t'.raw.read (line.toNat * 160 + x) = t.raw.read (line.toNat * 160 + x) ∧
      t'.bgs.read (line.toNat * 160 + x) = t.bgs.read (line.toNat * 160 + x)

/-! ### Sprite line renderer -/

/-- R171: outside `[0,144)` `SPRLINE` changes no state and is no fault, sprites enabled or not. -/
def Obligations.SprlineOffScreenIsANoOp : Prop :=
  ∀ (line : Int) (s : State), s.fault = false → (line < 0 ∨ 144 ≤ line) →
    exec (.sprline line) s = .next { s with resp := some 0 }

/-- R172: with sprites disabled the row becomes transparent and nothing else changes; with sprites enabled no pixel is erased. -/
def Obligations.DisabledSpritesClearTheRow : Prop :=
  ∀ (line : Int) (s : State), s.fault = false → 0 ≤ line → line < 144 →
    (s.env.spritesEnabled = false → ∃ t, exec (.sprline line) s = .next t ∧
      t = { s with sps := t.sps, resp := some 0 } ∧ (∀ x < 160, t.sps.read (line.toNat * 160 + x) = 0) ∧
      ∀ a, (a < line.toNat * 160 ∨ line.toNat * 160 + 160 ≤ a) → t.sps.read a = s.sps.read a) ∧
    (s.env.spritesEnabled = true → ∃ t, exec (.sprline line) s = .next t ∧
      ∀ a, t.sps.read a ≠ s.sps.read a → t.sps.read a ≠ 0)

/-- R170, R184: with sprites enabled `SPRLINE` completes, and writes nothing but shades into its row of `SPS`, `CLAIM`, and sprite
entries of the cache. -/
def Obligations.SprlineFrame : Prop :=
  ∀ (line : Int) (s : State), s.fault = false → 0 ≤ line → line < 144 → s.env.spritesEnabled = true →
    ∃ t, exec (.sprline line) s = .next t ∧
      t = { s with sps := t.sps, claim := t.claim, rc := t.rc, resp := some 0 } ∧
      (∀ a, (a < line.toNat * 160 ∨ line.toNat * 160 + 160 ≤ a) → t.sps.read a = s.sps.read a) ∧
      (∀ a, t.sps.read a = s.sps.read a ∨ ∃ i, t.sps.read a = shade i) ∧
      ∀ k, (s.rc.read k ≠ none ∨ k < 2048) → t.rc.read k = s.rc.read k

/-- R185: the closed form of every sprite pixel, in a state whose cache is coherent (R64). For every other state see
`LinesDrawTheRowsGetRowGives`. -/
def Obligations.SprlinePixelFormula : Prop :=
  ∀ (line : Int) (s : State), s.fault = false → s.coherent → 0 ≤ line → line < 144 → s.env.spritesEnabled = true →
    ∃ t, exec (.sprline line) s = .next t ∧ ∀ x < 160,
      (∀ m < 40, Spec.spriteDraws s line.toNat x m → (∀ n < m, ¬Spec.spriteDraws s line.toNat x n) →
        t.sps.read (line.toNat * 160 + x) =
          shade ((if (s.env.sprite m).attr.getLsbD 4 then s.env.obp1 else s.env.obp0).extractLsb'
            (2 * Spec.spriteRaw s.env (s.env.sprite m) line.toNat x) 2)) ∧
      ((∀ n < 40, ¬Spec.spriteDraws s line.toNat x n) →
        t.sps.read (line.toNat * 160 + x) = s.sps.read (line.toNat * 160 + x))

/-- R28, R179: after a pass `CLAIM[x]` is 1 exactly when a sprite of this pass wrote column `x`. -/
def Obligations.ClaimsAreThisPassesWrites : Prop :=
  ∀ (line : Int) (s t : State), s.fault = false → s.coherent → 0 ≤ line → line < 144 → s.env.spritesEnabled = true →
    exec (.sprline line) s = .next t → ∀ x < 160, t.claim.read x = true ↔ ∃ n < 40, Spec.spriteDraws s line.toNat x n

/-- R183: a second `SPRLINE` with unchanged inputs writes the same pixels with the same values and fills nothing. -/
def Obligations.SprlineIsIdempotent : Prop :=
  ∀ (line : Int) (s t u : State), s.fault = false → exec (.sprline line) s = .next t → exec (.sprline line) t = .next u →
    (∀ a, u.sps.read a = t.sps.read a) ∧ (∀ x < 160, u.claim.read x = t.claim.read x) ∧ u.rc = t.rc

/-- R28, R173, R184: a pass never looks at `BGS`, `SPS` or an old `CLAIM`. Whatever they held, the same pixels get the same values
and the other pixels keep theirs. -/
def Obligations.ASpritePassIgnoresTheSurfaces : Prop :=
  ∀ (line : Int) (s t : State) (bgs sps : Memory Rgba) (claim : Memory Bool), s.fault = false → 0 ≤ line → line < 144 →
    s.env.spritesEnabled = true → exec (.sprline line) s = .next t →
    ∃ t', exec (.sprline line) { s with bgs := bgs, sps := sps, claim := claim } = .next t' ∧
      t' = { t with bgs := bgs, sps := t'.sps } ∧
      ∀ a, t'.sps.read a = t.sps.read a ∨ t'.sps.read a = sps.read a ∧ t.sps.read a = s.sps.read a

/-- R35, R184: bits `[3:0]` of the sprite attributes have no effect. -/
def Obligations.LowAttributeBitsHaveNoEffect : Prop :=
  ∀ (line : Int) (s t : State) (table : Memory SpriteEntry),
    (∀ n < 40, (table.read n).y = (s.env.sprite n).y ∧ (table.read n).x = (s.env.sprite n).x ∧
      (table.read n).tile = (s.env.sprite n).tile ∧
      (table.read n).attr.extractLsb' 4 4 = (s.env.sprite n).attr.extractLsb' 4 4) →
    exec (.sprline line) s = .next t →
    exec (.sprline line) { s with env := { s.env with sprites := table } } =
      .next { t with env := { s.env with sprites := table } }

/-! ### Compositor -/

/-- R196: clearing a surface makes all its pixels transparent, clears `RAW` with the background, and touches nothing else. -/
def Obligations.ClearResetsOneSurface : Prop :=
  ∀ s : State, s.fault = false →
    (∃ t, exec (.clear .bg) s = .next t ∧ t = { s with bgs := t.bgs, raw := t.raw, resp := some 0 } ∧
      ∀ a, t.bgs.read a = 0 ∧ t.raw.read a = 0) ∧
    ∃ t, exec (.clear .spr) s = .next t ∧ t = { s with sps := t.sps, resp := some 0 } ∧ ∀ a, t.sps.read a = 0

/-- R195, R197, R198: `CLRFRAME` clears both surfaces and `RAW` and nothing else, and equals the two `CLEAR` commands in either
order. -/
def Obligations.ClrframeIsBothClears : Prop :=
  ∀ s : State, s.fault = false →
    ∃ t, exec .clrframe s = .next t ∧
      t = { s with bgs := t.bgs, sps := t.sps, raw := t.raw, resp := some 0 } ∧
      (∀ a, t.bgs.read a = 0 ∧ t.sps.read a = 0 ∧ t.raw.read a = 0) ∧
      ∀ surf surf' u, surf ≠ surf' → exec (.clear surf) s = .next u → exec (.clear surf') u = .next t

/-- R199, R200, R201: `WRPIX` stores one pixel of one surface, any value, and changes nothing else. -/
def Obligations.WrpixStoresOnePixel : Prop :=
  ∀ (x y : Byte) (v : Rgba) (s : State), s.fault = false → x.toNat < 160 → y.toNat < 144 →
    (∃ t, exec (.wrpix .bg x y v) s = .next t ∧ t = { s with bgs := t.bgs, resp := some 0 } ∧
      t.bgs.read (y.toNat * 160 + x.toNat) = v ∧
      ∀ a, a ≠ y.toNat * 160 + x.toNat → t.bgs.read a = s.bgs.read a) ∧
    ∃ t, exec (.wrpix .spr x y v) s = .next t ∧ t = { s with sps := t.sps, resp := some 0 } ∧
      t.sps.read (y.toNat * 160 + x.toNat) = v ∧
      ∀ a, a ≠ y.toNat * 160 + x.toNat → t.sps.read a = s.sps.read a

/-- R202, R203: `RDPIX` answers the pixel and changes nothing else. -/
def Obligations.RdpixAnswersThePixel : Prop :=
  ∀ (x y : Byte) (s : State), s.fault = false → x.toNat < 160 → y.toNat < 144 →
    exec (.rdpix .bg x y) s = .next { s with resp := some (0#1 ++ s.bgs.read (y.toNat * 160 + x.toNat)) } ∧
      exec (.rdpix .spr x y) s = .next { s with resp := some (0#1 ++ s.sps.read (y.toNat * 160 + x.toNat)) }

/-- R61, R69, R199, R202: after a `WRPIX`, `RDPIX` of the same pixel answers the value written, and of every other pixel of either
surface what it answered before. -/
def Obligations.APixelWrittenIsThePixelRead : Prop :=
  ∀ (surf surf' : Surf) (x y x' y' : Byte) (v : Rgba) (s t : State), s.fault = false → x.toNat < 160 → y.toNat < 144 →
    x'.toNat < 160 → y'.toNat < 144 → exec (.wrpix surf x y v) s = .next t →
    ∃ u u', exec (.rdpix surf' x' y') t = .next u ∧ exec (.rdpix surf' x' y') s = .next u' ∧
      u.resp = if surf' = surf ∧ x' = x ∧ y' = y then some (0#1 ++ v) else u'.resp

/-! ### Ports -/

/-- R52 to R55, R80: what travels on the accessor channels is read back whole, each field stands where the rule puts it, and a
surface presented as bytes shows `R`, `G`, `B`, `A` at offsets 0 to 3 of each pixel. -/
def Obligations.PortsLoseNothing : Prop :=
  (∀ b : BytePair, BytePair.ofChannel b.onChannel = b ∧ b.onChannel.toNat = b.lo.toNat + 256 * b.hi.toNat) ∧
    (∀ e : SpriteEntry, SpriteEntry.ofChannel e.onChannel = e ∧ e.onChannel.toNat =
      e.y.toNat + 2 ^ 8 * e.x.toNat + 2 ^ 16 * e.tile.toNat + 2 ^ 24 * e.attr.toNat) ∧
    (∀ gx gy : U5, (tileMapAddress gx gy).toNat = gy.toNat * 32 + gx.toNat) ∧
    (∀ (t : Byte) (r : U3), (rowAddress t r).toNat = t.toNat * 8 + r.toNat) ∧
    ∀ (s : State) (surf : Surf) (a j : Nat), j < 4 →
      surfaceByte s surf (4 * a + j) = ((s.surface surf).read a).extractLsb' (24 - 8 * j) 8

/-! ### What every step keeps -/

/-- R22, R29, R39: the state after reset meets the invariant, and its cache is coherent. The environment of `State.reset`
(assumption 2) and its empty response port (assumption 5) are the model's choices. -/
def Obligations.ResetMeetsTheInvariant : Prop :=
  State.reset.inv ∧ State.reset.coherent

/-- R22, R29, R50, R83, R216, R219: every step keeps the canonical form of every array inside its space, the latch with its code,
the response port, and the collaborator's tables.
The sparse canonical form (assumption 7) and the response port in `State` (assumption 5) are the model's. -/
def Obligations.EveryStepKeepsTheInvariant : Prop :=
  ∀ s t : State, s.inv → step s = .next t → t.inv

/-- R40 item 1, R64, R246: every step but a change of pattern rows by the collaborator keeps the cache coherent. And every step,
that one too, keeps the discipline: what is still to come stays disciplined, and the cache is coherent unless the latch is set
or a row has changed since the cache was last dropped. -/
def Obligations.StepsKeepCoherence : Prop :=
  (∀ s t : State, s.coherent → step s = .next t →
      (∀ env rest, s.pending = .collaborator env :: rest → s.env.sameRows env) → t.coherent) ∧
    ∀ s t : State, (∃ dirty, s.disciplined dirty) → step s = .next t → ∃ dirty, t.disciplined dirty

/-- R64, R246: if the collaborator notifies every pattern change before the next operation that calls `GetRow`, every such
operation that is not refused finds a cache that agrees with `Env`: `GetRow` returns, for every key, the row the accessor's
bytes decode to now. -/
def Obligations.DisciplinedStreamsNeverUseStaleRows : Prop :=
  ∀ (s t : State) (k : Nat), s.coherent → Disciplined s.env false s.pending → Host.Core.run Sys2Proof.core k s = .next t →
    t.fault = false → (∃ e rest, t.pending = e :: rest ∧ e.callsGetRow = true) →
    ∀ (tile : Byte) (r : U3) (src : Src), (getRow tile r src t).1 =
      decodeRow (Spec.rowBytes t.env tile r src).lo (Spec.rowBytes t.env tile r src).hi

/-- R40 item 5: no operation but `WRPIX` stores into a surface anything but the transparent pixel or a shade. -/
def Obligations.OnlyWrpixStoresOtherColours : Prop :=
  ∀ (i : Instr) (s t : State), (∀ surf x y v, i ≠ .wrpix surf x y v) → exec i s = .next t →
    ∀ a, (t.bgs.read a = s.bgs.read a ∨ isPictureColour (t.bgs.read a)) ∧
      (t.sps.read a = s.sps.read a ∨ isPictureColour (t.sps.read a))

/-- R57, R61: every operation answers a next state, be it its effect, a refusal (R220) or the entry into a fault (R217), and in
none of them writes the collaborator's memory or registers or the stream, nor the model's own count of draws (assumption 1). -/
def Obligations.OperationsNeverWriteTheEnvironment : Prop :=
  ∀ (i : Instr) (s : State), ∃ t, exec i s = .next t ∧ t.env = s.env ∧ t.pending = s.pending ∧ t.draws = s.draws

/-- R217, R220, R224, R252: the end of a run tells whether it went wrong. Without a reset in the stream, a run that ends with
`FAULT = 0` had `FAULT = 0` in every state on its way; and a run from such a state, whose response port shows no fault of an
earlier one, ends so exactly when no response on its way had `fault = 1`. That the port keeps the last response is the model's
choice (assumption 5). -/
def Obligations.AGoodEndMeansAGoodRun : Prop :=
  (∀ (s t : State) (k : Nat), (∀ e ∈ s.pending, e ≠ .reset) → Host.Core.run Sys2Proof.core k s = .next t → t.good →
      ∀ j ≤ k, ∃ u, Host.Core.run Sys2Proof.core j s = .next u ∧ u.good) ∧
    ∀ (s t : State) (k : Nat), (∀ e ∈ s.pending, e ≠ .reset) → s.good → s.noFaultShown →
      Host.Core.run Sys2Proof.core k s = .next t →
      (t.good ↔ ∀ j ≤ k, ∃ u, Host.Core.run Sys2Proof.core j s = .next u ∧ u.noFaultShown)
end

