-- ==== Sys2Proof/Laws/Memory.lean ====
section
/-! SUPPORT. The laws of an element-addressed array: read after write, what a write leaves alone, and that every operation keeps
the canonical form `Memory.wf`. -/

namespace Sys2Proof.Machine

variable {α : Type}

@[simp] theorem lookup_insert_same (a : Nat) (v : α) (cells : List (Nat × α)) :
    Memory.lookup (Memory.insert a v cells) a = some v := by
  induction cells with
  | nil => simp [Memory.insert, Memory.lookup]
  | cons c rest ih =>
    obtain ⟨b, u⟩ := c
    by_cases hlt : a < b
    · simp [Memory.insert, Memory.lookup, hlt]
    · by_cases heq : a = b
      · simp [Memory.insert, Memory.lookup, heq]
      · simp [Memory.insert, Memory.lookup, hlt, heq, Ne.symm heq, ih]

theorem lookup_insert_other {a b : Nat} (h : b ≠ a) (v : α) (cells : List (Nat × α)) :
    Memory.lookup (Memory.insert a v cells) b = Memory.lookup cells b := by
  induction cells with
  | nil => simp [Memory.insert, Memory.lookup, Ne.symm h]
  | cons c rest ih =>
    obtain ⟨k, u⟩ := c
    by_cases hlt : a < k
    · simp [Memory.insert, Memory.lookup, hlt, Ne.symm h]
    · by_cases heq : a = k
      · subst heq
        simp [Memory.insert, Memory.lookup, Ne.symm h]
      · simp [Memory.insert, Memory.lookup, hlt, heq, ih]

@[simp] theorem lookup_erase_same (a : Nat) (cells : List (Nat × α)) :
    Memory.lookup (Memory.erase a cells) a = none := by
  induction cells with
  | nil => rfl
  | cons c rest ih =>
    obtain ⟨b, u⟩ := c
    by_cases h : b = a
    · simpa [Memory.erase, h] using ih
    · simpa [Memory.erase, Memory.lookup, h] using ih

theorem lookup_erase_other {a b : Nat} (h : b ≠ a) (cells : List (Nat × α)) :
    Memory.lookup (Memory.erase a cells) b = Memory.lookup cells b := by
  induction cells with
  | nil => rfl
  | cons c rest ih =>
    obtain ⟨k, u⟩ := c
    by_cases hk : k = a
    · subst hk
      simpa [Memory.erase, Memory.lookup, Ne.symm h] using ih
    · by_cases hb : k = b
      · simp [Memory.erase, Memory.lookup, hb, h]
      · simpa [Memory.erase, Memory.lookup, hk, hb] using ih

@[simp] theorem fill_write [DecidableEq α] (m : Memory α) (a : Nat) (v : α) : (m.write a v).fill = m.fill := rfl

/-- A write, by whether the value is the one every unlisted element holds. -/
theorem write_eq [DecidableEq α] (m : Memory α) (a : Nat) (v : α) : m.write a v =
    if m.fill = .known v then ⟨m.fill, Memory.erase a m.cells⟩ else ⟨m.fill, Memory.insert a v m.cells⟩ := by
  unfold Memory.write
  split <;> rfl

@[simp] theorem read_write_same [DecidableEq α] [Inhabited α] (m : Memory α) (a : Nat) (v : α) :
    (m.write a v).read a = v := by
  rw [write_eq]
  split
  · next h => simp [Memory.read, Memory.unlisted, h]
  · simp [Memory.read]

theorem read_write_other [DecidableEq α] [Inhabited α] {a b : Nat} (h : b ≠ a) (m : Memory α) (v : α) :
    (m.write a v).read b = m.read b := by
  rw [write_eq]
  split
  · simp [Memory.read, Memory.unlisted, lookup_erase_other h]
  · simp [Memory.read, Memory.unlisted, lookup_insert_other h]

theorem read_write [DecidableEq α] [Inhabited α] (m : Memory α) (a b : Nat) (v : α) :
    (m.write a v).read b = if b = a then v else m.read b := by
  by_cases h : b = a
  · subst h; simp
  · simp [h, read_write_other h]

@[simp] theorem read_filled [Inhabited α] (v : α) (a : Nat) : (Memory.filled v).read a = v := rfl

@[simp] theorem read_drawn [Inhabited α] (space : Config.Space) (draw a : Nat) :
    (Memory.drawn space draw : Memory α).read a = Config.unspecified α space draw a := rfl

@[simp] theorem fill_filled (v : α) : (Memory.filled v).fill = .known v := rfl

@[simp] theorem fill_drawn (space : Config.Space) (draw : Nat) :
    (Memory.drawn space draw : Memory α).fill = .drawn space draw := rfl

theorem mem_insert {a : Nat} {v : α} {c : Nat × α} {cells : List (Nat × α)} (h : c ∈ Memory.insert a v cells) :
    c = (a, v) ∨ c ∈ cells := by
  induction cells with
  | nil => simpa [Memory.insert] using h
  | cons d rest ih =>
    obtain ⟨b, u⟩ := d
    simp only [Memory.insert] at h
    split at h
    · simpa using h
    · split at h
      · rcases List.mem_cons.mp h with h | h
        · exact .inl h
        · exact .inr (List.mem_cons_of_mem _ h)
      · rcases List.mem_cons.mp h with h | h
        · exact .inr (h ▸ List.mem_cons_self)
        · exact (ih h).imp id (List.mem_cons_of_mem _)

theorem insert_rising {a : Nat} {v : α} {cells : List (Nat × α)} (h : (cells.map Prod.fst).Pairwise (· < ·)) :
    ((Memory.insert a v cells).map Prod.fst).Pairwise (· < ·) := by
  induction cells with
  | nil => simp [Memory.insert]
  | cons d rest ih =>
    obtain ⟨b, u⟩ := d
    simp only [List.map_cons, List.pairwise_cons] at h
    simp only [Memory.insert]
    split
    · next hlt =>
      simp only [List.map_cons, List.pairwise_cons]
      refine ⟨fun x hx => ?_, h⟩
      rcases List.mem_cons.mp hx with rfl | hx
      · exact hlt
      · exact lt_trans hlt (h.1 x hx)
    · split
      · next heq => subst heq; simpa [List.pairwise_cons] using h
      · next hlt hne =>
        simp only [List.map_cons, List.pairwise_cons]
        refine ⟨fun x hx => ?_, ih h.2⟩
        obtain ⟨c, hc, rfl⟩ := List.mem_map.mp hx
        rcases mem_insert hc with rfl | hc
        · show b < a
          omega
        · exact h.1 _ (List.mem_map_of_mem hc)

theorem wf_filled (size : Nat) (v : α) : (Memory.filled v).wf size := by
  simp [Memory.wf, Memory.filled]

theorem wf_drawn (size : Nat) (space : Config.Space) (draw : Nat) : (Memory.drawn space draw : Memory α).wf size := by
  simp [Memory.wf, Memory.drawn]

/-- A write inside the array keeps the canonical form. -/
theorem wf_write [DecidableEq α] {size a : Nat} {m : Memory α} (h : m.wf size) (ha : a < size) (v : α) :
    (m.write a v).wf size := by
  obtain ⟨hr, hs, hf⟩ := h
  rw [write_eq]
  split
  · refine ⟨?_, fun c hc => hs c ?_, fun c hc => hf c ?_⟩
    · exact hr.sublist ((List.filter_sublist).map _)
    · exact (List.mem_filter.mp hc).1
    · exact (List.mem_filter.mp hc).1
  · next hne =>
    refine ⟨insert_rising hr, fun c hc => ?_, fun c hc => ?_⟩
    · rcases mem_insert hc with rfl | hc
      · exact ha
      · exact hs c hc
    · rcases mem_insert hc with rfl | hc
      · exact hne
      · exact hf c hc

end Sys2Proof.Machine
end

