-- ==== Sys2Proof/Laws/State.lean ====
section
/-! SUPPORT. One lemma per field per named update of `State`: what it sets and what it leaves alone. -/

namespace Sys2Proof.Machine

@[simp] theorem respond_bgs (d : BitVec 32) (s : State) : (respond d s).bgs = s.bgs := rfl
@[simp] theorem respond_sps (d : BitVec 32) (s : State) : (respond d s).sps = s.sps := rfl
@[simp] theorem respond_raw (d : BitVec 32) (s : State) : (respond d s).raw = s.raw := rfl
@[simp] theorem respond_rc (d : BitVec 32) (s : State) : (respond d s).rc = s.rc := rfl
@[simp] theorem respond_claim (d : BitVec 32) (s : State) : (respond d s).claim = s.claim := rfl
@[simp] theorem respond_fault (d : BitVec 32) (s : State) : (respond d s).fault = s.fault := rfl
@[simp] theorem respond_fcode (d : BitVec 32) (s : State) : (respond d s).fcode = s.fcode := rfl
@[simp] theorem respond_env (d : BitVec 32) (s : State) : (respond d s).env = s.env := rfl
@[simp] theorem respond_pending (d : BitVec 32) (s : State) : (respond d s).pending = s.pending := rfl
@[simp] theorem respond_resp (d : BitVec 32) (s : State) : (respond d s).resp = some (okResponse d) := rfl
@[simp] theorem respond_draws (d : BitVec 32) (s : State) : (respond d s).draws = s.draws := rfl

@[simp] theorem refuse_bgs (s : State) : (refuse s).bgs = s.bgs := rfl
@[simp] theorem refuse_sps (s : State) : (refuse s).sps = s.sps := rfl
@[simp] theorem refuse_raw (s : State) : (refuse s).raw = s.raw := rfl
@[simp] theorem refuse_rc (s : State) : (refuse s).rc = s.rc := rfl
@[simp] theorem refuse_claim (s : State) : (refuse s).claim = s.claim := rfl
@[simp] theorem refuse_fault (s : State) : (refuse s).fault = s.fault := rfl
@[simp] theorem refuse_fcode (s : State) : (refuse s).fcode = s.fcode := rfl
@[simp] theorem refuse_env (s : State) : (refuse s).env = s.env := rfl
@[simp] theorem refuse_pending (s : State) : (refuse s).pending = s.pending := rfl
@[simp] theorem refuse_resp (s : State) : (refuse s).resp = some (faultResponse s.fcode) := rfl
@[simp] theorem refuse_draws (s : State) : (refuse s).draws = s.draws := rfl

@[simp] theorem raiseFault_bgs (c : FaultCode) (s : State) : (raiseFault c s).bgs = s.bgs := rfl
@[simp] theorem raiseFault_sps (c : FaultCode) (s : State) : (raiseFault c s).sps = s.sps := rfl
@[simp] theorem raiseFault_raw (c : FaultCode) (s : State) : (raiseFault c s).raw = s.raw := rfl
@[simp] theorem raiseFault_rc (c : FaultCode) (s : State) : (raiseFault c s).rc = s.rc := rfl
@[simp] theorem raiseFault_claim (c : FaultCode) (s : State) : (raiseFault c s).claim = s.claim := rfl
@[simp] theorem raiseFault_fault (c : FaultCode) (s : State) : (raiseFault c s).fault = true := rfl
@[simp] theorem raiseFault_fcode (c : FaultCode) (s : State) : (raiseFault c s).fcode = c := rfl
@[simp] theorem raiseFault_env (c : FaultCode) (s : State) : (raiseFault c s).env = s.env := rfl
@[simp] theorem raiseFault_pending (c : FaultCode) (s : State) : (raiseFault c s).pending = s.pending := rfl
@[simp] theorem raiseFault_resp (c : FaultCode) (s : State) : (raiseFault c s).resp = some (faultResponse c) := rfl
@[simp] theorem raiseFault_draws (c : FaultCode) (s : State) : (raiseFault c s).draws = s.draws := rfl

@[simp] theorem setEnv_bgs (e : Env) (s : State) : (setEnv e s).bgs = s.bgs := rfl
@[simp] theorem setEnv_sps (e : Env) (s : State) : (setEnv e s).sps = s.sps := rfl
@[simp] theorem setEnv_raw (e : Env) (s : State) : (setEnv e s).raw = s.raw := rfl
@[simp] theorem setEnv_rc (e : Env) (s : State) : (setEnv e s).rc = s.rc := rfl
@[simp] theorem setEnv_claim (e : Env) (s : State) : (setEnv e s).claim = s.claim := rfl
@[simp] theorem setEnv_fault (e : Env) (s : State) : (setEnv e s).fault = s.fault := rfl
@[simp] theorem setEnv_fcode (e : Env) (s : State) : (setEnv e s).fcode = s.fcode := rfl
@[simp] theorem setEnv_env (e : Env) (s : State) : (setEnv e s).env = e := rfl
@[simp] theorem setEnv_pending (e : Env) (s : State) : (setEnv e s).pending = s.pending := rfl
@[simp] theorem setEnv_resp (e : Env) (s : State) : (setEnv e s).resp = s.resp := rfl
@[simp] theorem setEnv_draws (e : Env) (s : State) : (setEnv e s).draws = s.draws := rfl

@[simp] theorem setPending_bgs (es : List Event) (s : State) : (setPending es s).bgs = s.bgs := rfl
@[simp] theorem setPending_sps (es : List Event) (s : State) : (setPending es s).sps = s.sps := rfl
@[simp] theorem setPending_raw (es : List Event) (s : State) : (setPending es s).raw = s.raw := rfl
@[simp] theorem setPending_rc (es : List Event) (s : State) : (setPending es s).rc = s.rc := rfl
@[simp] theorem setPending_claim (es : List Event) (s : State) : (setPending es s).claim = s.claim := rfl
@[simp] theorem setPending_fault (es : List Event) (s : State) : (setPending es s).fault = s.fault := rfl
@[simp] theorem setPending_fcode (es : List Event) (s : State) : (setPending es s).fcode = s.fcode := rfl
@[simp] theorem setPending_env (es : List Event) (s : State) : (setPending es s).env = s.env := rfl
@[simp] theorem setPending_pending (es : List Event) (s : State) : (setPending es s).pending = es := rfl
@[simp] theorem setPending_resp (es : List Event) (s : State) : (setPending es s).resp = s.resp := rfl
@[simp] theorem setPending_draws (es : List Event) (s : State) : (setPending es s).draws = s.draws := rfl

@[simp] theorem writeRaw_bgs (x y : Nat) (v : U2) (s : State) : (writeRaw x y v s).bgs = s.bgs := rfl
@[simp] theorem writeRaw_sps (x y : Nat) (v : U2) (s : State) : (writeRaw x y v s).sps = s.sps := rfl
@[simp] theorem writeRaw_raw (x y : Nat) (v : U2) (s : State) : (writeRaw x y v s).raw = s.raw.write (pixAddr x y) v := rfl
@[simp] theorem writeRaw_rc (x y : Nat) (v : U2) (s : State) : (writeRaw x y v s).rc = s.rc := rfl
@[simp] theorem writeRaw_claim (x y : Nat) (v : U2) (s : State) : (writeRaw x y v s).claim = s.claim := rfl
@[simp] theorem writeRaw_fault (x y : Nat) (v : U2) (s : State) : (writeRaw x y v s).fault = s.fault := rfl
@[simp] theorem writeRaw_fcode (x y : Nat) (v : U2) (s : State) : (writeRaw x y v s).fcode = s.fcode := rfl
@[simp] theorem writeRaw_env (x y : Nat) (v : U2) (s : State) : (writeRaw x y v s).env = s.env := rfl
@[simp] theorem writeRaw_pending (x y : Nat) (v : U2) (s : State) : (writeRaw x y v s).pending = s.pending := rfl
@[simp] theorem writeRaw_resp (x y : Nat) (v : U2) (s : State) : (writeRaw x y v s).resp = s.resp := rfl
@[simp] theorem writeRaw_draws (x y : Nat) (v : U2) (s : State) : (writeRaw x y v s).draws = s.draws := rfl

@[simp] theorem claimColumn_bgs (x : Nat) (s : State) : (claimColumn x s).bgs = s.bgs := rfl
@[simp] theorem claimColumn_sps (x : Nat) (s : State) : (claimColumn x s).sps = s.sps := rfl
@[simp] theorem claimColumn_raw (x : Nat) (s : State) : (claimColumn x s).raw = s.raw := rfl
@[simp] theorem claimColumn_rc (x : Nat) (s : State) : (claimColumn x s).rc = s.rc := rfl
@[simp] theorem claimColumn_claim (x : Nat) (s : State) : (claimColumn x s).claim = s.claim.write x true := rfl
@[simp] theorem claimColumn_fault (x : Nat) (s : State) : (claimColumn x s).fault = s.fault := rfl
@[simp] theorem claimColumn_fcode (x : Nat) (s : State) : (claimColumn x s).fcode = s.fcode := rfl
@[simp] theorem claimColumn_env (x : Nat) (s : State) : (claimColumn x s).env = s.env := rfl
@[simp] theorem claimColumn_pending (x : Nat) (s : State) : (claimColumn x s).pending = s.pending := rfl
@[simp] theorem claimColumn_resp (x : Nat) (s : State) : (claimColumn x s).resp = s.resp := rfl
@[simp] theorem claimColumn_draws (x : Nat) (s : State) : (claimColumn x s).draws = s.draws := rfl

@[simp] theorem clearClaim_bgs (s : State) : (clearClaim s).bgs = s.bgs := rfl
@[simp] theorem clearClaim_sps (s : State) : (clearClaim s).sps = s.sps := rfl
@[simp] theorem clearClaim_raw (s : State) : (clearClaim s).raw = s.raw := rfl
@[simp] theorem clearClaim_rc (s : State) : (clearClaim s).rc = s.rc := rfl
@[simp] theorem clearClaim_claim (s : State) : (clearClaim s).claim = Memory.filled false := rfl
@[simp] theorem clearClaim_fault (s : State) : (clearClaim s).fault = s.fault := rfl
@[simp] theorem clearClaim_fcode (s : State) : (clearClaim s).fcode = s.fcode := rfl
@[simp] theorem clearClaim_env (s : State) : (clearClaim s).env = s.env := rfl
@[simp] theorem clearClaim_pending (s : State) : (clearClaim s).pending = s.pending := rfl
@[simp] theorem clearClaim_resp (s : State) : (clearClaim s).resp = s.resp := rfl
@[simp] theorem clearClaim_draws (s : State) : (clearClaim s).draws = s.draws := rfl

@[simp] theorem fillCache_bgs (k : Nat) (row : Row) (s : State) : (fillCache k row s).bgs = s.bgs := rfl
@[simp] theorem fillCache_sps (k : Nat) (row : Row) (s : State) : (fillCache k row s).sps = s.sps := rfl
@[simp] theorem fillCache_raw (k : Nat) (row : Row) (s : State) : (fillCache k row s).raw = s.raw := rfl
@[simp] theorem fillCache_rc (k : Nat) (row : Row) (s : State) : (fillCache k row s).rc = s.rc.write k (some row) := rfl
@[simp] theorem fillCache_claim (k : Nat) (row : Row) (s : State) : (fillCache k row s).claim = s.claim := rfl
@[simp] theorem fillCache_fault (k : Nat) (row : Row) (s : State) : (fillCache k row s).fault = s.fault := rfl
@[simp] theorem fillCache_fcode (k : Nat) (row : Row) (s : State) : (fillCache k row s).fcode = s.fcode := rfl
@[simp] theorem fillCache_env (k : Nat) (row : Row) (s : State) : (fillCache k row s).env = s.env := rfl
@[simp] theorem fillCache_pending (k : Nat) (row : Row) (s : State) : (fillCache k row s).pending = s.pending := rfl
@[simp] theorem fillCache_resp (k : Nat) (row : Row) (s : State) : (fillCache k row s).resp = s.resp := rfl
@[simp] theorem fillCache_draws (k : Nat) (row : Row) (s : State) : (fillCache k row s).draws = s.draws := rfl

@[simp] theorem invalidate_bgs (s : State) : (invalidate s).bgs = s.bgs := rfl
@[simp] theorem invalidate_sps (s : State) : (invalidate s).sps = s.sps := rfl
@[simp] theorem invalidate_raw (s : State) : (invalidate s).raw = s.raw := rfl
@[simp] theorem invalidate_rc (s : State) : (invalidate s).rc = Memory.filled none := rfl
@[simp] theorem invalidate_claim (s : State) : (invalidate s).claim = s.claim := rfl
@[simp] theorem invalidate_fault (s : State) : (invalidate s).fault = s.fault := rfl
@[simp] theorem invalidate_fcode (s : State) : (invalidate s).fcode = s.fcode := rfl
@[simp] theorem invalidate_env (s : State) : (invalidate s).env = s.env := rfl
@[simp] theorem invalidate_pending (s : State) : (invalidate s).pending = s.pending := rfl
@[simp] theorem invalidate_resp (s : State) : (invalidate s).resp = s.resp := rfl
@[simp] theorem invalidate_draws (s : State) : (invalidate s).draws = s.draws := rfl

@[simp] theorem writePixel_bg_bgs (x y : Nat) (v : Rgba) (s : State) : (writePixel .bg x y v s).bgs = s.bgs.write (pixAddr x y) v := rfl
@[simp] theorem writePixel_bg_sps (x y : Nat) (v : Rgba) (s : State) : (writePixel .bg x y v s).sps = s.sps := rfl
@[simp] theorem writePixel_bg_raw (x y : Nat) (v : Rgba) (s : State) : (writePixel .bg x y v s).raw = s.raw := rfl
@[simp] theorem writePixel_bg_rc (x y : Nat) (v : Rgba) (s : State) : (writePixel .bg x y v s).rc = s.rc := rfl
@[simp] theorem writePixel_bg_claim (x y : Nat) (v : Rgba) (s : State) : (writePixel .bg x y v s).claim = s.claim := rfl
@[simp] theorem writePixel_bg_fault (x y : Nat) (v : Rgba) (s : State) : (writePixel .bg x y v s).fault = s.fault := rfl
@[simp] theorem writePixel_bg_fcode (x y : Nat) (v : Rgba) (s : State) : (writePixel .bg x y v s).fcode = s.fcode := rfl
@[simp] theorem writePixel_bg_env (x y : Nat) (v : Rgba) (s : State) : (writePixel .bg x y v s).env = s.env := rfl
@[simp] theorem writePixel_bg_pending (x y : Nat) (v : Rgba) (s : State) : (writePixel .bg x y v s).pending = s.pending := rfl
@[simp] theorem writePixel_bg_resp (x y : Nat) (v : Rgba) (s : State) : (writePixel .bg x y v s).resp = s.resp := rfl
@[simp] theorem writePixel_bg_draws (x y : Nat) (v : Rgba) (s : State) : (writePixel .bg x y v s).draws = s.draws := rfl

@[simp] theorem writePixel_spr_bgs (x y : Nat) (v : Rgba) (s : State) : (writePixel .spr x y v s).bgs = s.bgs := rfl
@[simp] theorem writePixel_spr_sps (x y : Nat) (v : Rgba) (s : State) : (writePixel .spr x y v s).sps = s.sps.write (pixAddr x y) v := rfl
@[simp] theorem writePixel_spr_raw (x y : Nat) (v : Rgba) (s : State) : (writePixel .spr x y v s).raw = s.raw := rfl
@[simp] theorem writePixel_spr_rc (x y : Nat) (v : Rgba) (s : State) : (writePixel .spr x y v s).rc = s.rc := rfl
@[simp] theorem writePixel_spr_claim (x y : Nat) (v : Rgba) (s : State) : (writePixel .spr x y v s).claim = s.claim := rfl
@[simp] theorem writePixel_spr_fault (x y : Nat) (v : Rgba) (s : State) : (writePixel .spr x y v s).fault = s.fault := rfl
@[simp] theorem writePixel_spr_fcode (x y : Nat) (v : Rgba) (s : State) : (writePixel .spr x y v s).fcode = s.fcode := rfl
@[simp] theorem writePixel_spr_env (x y : Nat) (v : Rgba) (s : State) : (writePixel .spr x y v s).env = s.env := rfl
@[simp] theorem writePixel_spr_pending (x y : Nat) (v : Rgba) (s : State) : (writePixel .spr x y v s).pending = s.pending := rfl
@[simp] theorem writePixel_spr_resp (x y : Nat) (v : Rgba) (s : State) : (writePixel .spr x y v s).resp = s.resp := rfl
@[simp] theorem writePixel_spr_draws (x y : Nat) (v : Rgba) (s : State) : (writePixel .spr x y v s).draws = s.draws := rfl

@[simp] theorem clearSurface_bg_bgs (s : State) : (clearSurface .bg s).bgs = Memory.filled 0 := rfl
@[simp] theorem clearSurface_bg_sps (s : State) : (clearSurface .bg s).sps = s.sps := rfl
@[simp] theorem clearSurface_bg_raw (s : State) : (clearSurface .bg s).raw = Memory.filled 0 := rfl
@[simp] theorem clearSurface_bg_rc (s : State) : (clearSurface .bg s).rc = s.rc := rfl
@[simp] theorem clearSurface_bg_claim (s : State) : (clearSurface .bg s).claim = s.claim := rfl
@[simp] theorem clearSurface_bg_fault (s : State) : (clearSurface .bg s).fault = s.fault := rfl
@[simp] theorem clearSurface_bg_fcode (s : State) : (clearSurface .bg s).fcode = s.fcode := rfl
@[simp] theorem clearSurface_bg_env (s : State) : (clearSurface .bg s).env = s.env := rfl
@[simp] theorem clearSurface_bg_pending (s : State) : (clearSurface .bg s).pending = s.pending := rfl
@[simp] theorem clearSurface_bg_resp (s : State) : (clearSurface .bg s).resp = s.resp := rfl
@[simp] theorem clearSurface_bg_draws (s : State) : (clearSurface .bg s).draws = s.draws := rfl

@[simp] theorem clearSurface_spr_bgs (s : State) : (clearSurface .spr s).bgs = s.bgs := rfl
@[simp] theorem clearSurface_spr_sps (s : State) : (clearSurface .spr s).sps = Memory.filled 0 := rfl
@[simp] theorem clearSurface_spr_raw (s : State) : (clearSurface .spr s).raw = s.raw := rfl
@[simp] theorem clearSurface_spr_rc (s : State) : (clearSurface .spr s).rc = s.rc := rfl
@[simp] theorem clearSurface_spr_claim (s : State) : (clearSurface .spr s).claim = s.claim := rfl
@[simp] theorem clearSurface_spr_fault (s : State) : (clearSurface .spr s).fault = s.fault := rfl
@[simp] theorem clearSurface_spr_fcode (s : State) : (clearSurface .spr s).fcode = s.fcode := rfl
@[simp] theorem clearSurface_spr_env (s : State) : (clearSurface .spr s).env = s.env := rfl
@[simp] theorem clearSurface_spr_pending (s : State) : (clearSurface .spr s).pending = s.pending := rfl
@[simp] theorem clearSurface_spr_resp (s : State) : (clearSurface .spr s).resp = s.resp := rfl
@[simp] theorem clearSurface_spr_draws (s : State) : (clearSurface .spr s).draws = s.draws := rfl

@[simp] theorem resetBlock_bgs (s : State) : (resetBlock s).bgs = Memory.drawn .bgs s.draws := rfl
@[simp] theorem resetBlock_sps (s : State) : (resetBlock s).sps = Memory.drawn .sps s.draws := rfl
@[simp] theorem resetBlock_raw (s : State) : (resetBlock s).raw = Memory.drawn .raw s.draws := rfl
@[simp] theorem resetBlock_rc (s : State) : (resetBlock s).rc = Memory.filled none := rfl
@[simp] theorem resetBlock_claim (s : State) : (resetBlock s).claim = Memory.drawn .claim s.draws := rfl
@[simp] theorem resetBlock_fault (s : State) : (resetBlock s).fault = false := rfl
@[simp] theorem resetBlock_fcode (s : State) : (resetBlock s).fcode = .noFault := rfl
@[simp] theorem resetBlock_env (s : State) : (resetBlock s).env = s.env := rfl
@[simp] theorem resetBlock_pending (s : State) : (resetBlock s).pending = s.pending := rfl
@[simp] theorem resetBlock_resp (s : State) : (resetBlock s).resp = none := rfl
@[simp] theorem resetBlock_draws (s : State) : (resetBlock s).draws = s.draws + 1 := rfl

end Sys2Proof.Machine
end

