-- ==== Sys2Proof/Laws/Ops.lean ====
section
/-! SUPPORT. What each shared operation can do: the latch test, the pixel index, the surfaces, the shades, the cache. -/

namespace Sys2Proof.Machine

/-! ### The latch test -/

/-- With `FAULT = 0` a command runs. -/
theorem unlessFaulted_run {s : State} (h : s.fault = false) (run : State → State) :
    unlessFaulted s run = .next (run s) := by simp [unlessFaulted, h]

/-- With `FAULT = 1` a command is refused. -/
theorem unlessFaulted_refuse {s : State} (h : s.fault = true) (run : State → State) :
    unlessFaulted s run = .next (refuse s) := by simp [unlessFaulted, h]

/-- A command always answers a next state, one of two. -/
theorem unlessFaulted_cases {s t : State} {run : State → State} (h : unlessFaulted s run = .next t) :
    (s.fault = true ∧ t = refuse s) ∨ (s.fault = false ∧ t = run s) := by
  cases hf : s.fault
  · rw [unlessFaulted_run hf] at h
    exact .inr ⟨rfl, by injection h with h; exact h.symm⟩
  · rw [unlessFaulted_refuse hf] at h
    exact .inl ⟨rfl, by injection h with h; exact h.symm⟩

/-! ### Pixel indices -/

theorem pixAddr_eq (x y : Nat) : pixAddr x y = y * 160 + x := rfl

theorem pixAddr_lt {x y : Nat} (hx : x < 160) (hy : y < 144) : pixAddr x y < 23040 := by
  simp only [pixAddr_eq]; omega

/-- Two pixels of a surface with one index are one pixel. -/
theorem pixAddr_inj {x y x' y' : Nat} (hx : x < 160) (hx' : x' < 160) :
    pixAddr x y = pixAddr x' y' ↔ x = x' ∧ y = y' := by
  simp only [pixAddr_eq]; omega

theorem inExtent_iff (x y : Byte) : inExtent x y = true ↔ x.toNat < 160 ∧ y.toNat < 144 := by simp [inExtent]

theorem inExtent_false_iff (x y : Byte) : inExtent x y = false ↔ 160 ≤ x.toNat ∨ 144 ≤ y.toNat := by
  simp only [inExtent, Config.screenW, Config.screenH, decide_eq_false_iff_not]; omega

theorem visibleLine_iff (line : Int) : visibleLine line = true ↔ 0 ≤ line ∧ line < 144 := by simp [visibleLine]

theorem visibleLine_natCast (line : Nat) (h : line < 144) : visibleLine (line : Int) = true := by
  simp [visibleLine]; omega

/-! ### Surfaces -/

@[simp] theorem writePixel_raw (surf : Surf) (x y : Nat) (v : Rgba) (s : State) :
    (writePixel surf x y v s).raw = s.raw := by cases surf <;> rfl
@[simp] theorem writePixel_rc (surf : Surf) (x y : Nat) (v : Rgba) (s : State) :
    (writePixel surf x y v s).rc = s.rc := by cases surf <;> rfl
@[simp] theorem writePixel_claim (surf : Surf) (x y : Nat) (v : Rgba) (s : State) :
    (writePixel surf x y v s).claim = s.claim := by cases surf <;> rfl
@[simp] theorem writePixel_env (surf : Surf) (x y : Nat) (v : Rgba) (s : State) :
    (writePixel surf x y v s).env = s.env := by cases surf <;> rfl
@[simp] theorem writePixel_fault (surf : Surf) (x y : Nat) (v : Rgba) (s : State) :
    (writePixel surf x y v s).fault = s.fault := by cases surf <;> rfl
@[simp] theorem writePixel_fcode (surf : Surf) (x y : Nat) (v : Rgba) (s : State) :
    (writePixel surf x y v s).fcode = s.fcode := by cases surf <;> rfl
@[simp] theorem writePixel_pending (surf : Surf) (x y : Nat) (v : Rgba) (s : State) :
    (writePixel surf x y v s).pending = s.pending := by cases surf <;> rfl
@[simp] theorem writePixel_resp (surf : Surf) (x y : Nat) (v : Rgba) (s : State) :
    (writePixel surf x y v s).resp = s.resp := by cases surf <;> rfl
@[simp] theorem writePixel_draws (surf : Surf) (x y : Nat) (v : Rgba) (s : State) :
    (writePixel surf x y v s).draws = s.draws := by cases surf <;> rfl

@[simp] theorem surface_bg (s : State) : s.surface .bg = s.bgs := rfl
@[simp] theorem surface_spr (s : State) : s.surface .spr = s.sps := rfl

theorem readPixel_eq (surf : Surf) (x y : Nat) (s : State) :
    readPixel surf x y s = (s.surface surf).read (pixAddr x y) := by cases surf <;> rfl

/-- What a surface reads as after a pixel write. -/
theorem surface_writePixel_read (surf surf' : Surf) (x y a : Nat) (v : Rgba) (s : State) :
    ((writePixel surf x y v s).surface surf').read a =
      if surf' = surf ∧ a = pixAddr x y then v else (s.surface surf').read a := by
  cases surf <;> cases surf' <;> simp [read_write]

/-! ### Responses -/

@[simp] theorem respFault_ok (d : BitVec 32) : respFault (okResponse d) = false := by
  simp only [respFault, okResponse, BitVec.getLsbD_append]
  simp

@[simp] theorem respFault_fault (c : FaultCode) : respFault (faultResponse c) = true := by
  cases c <;> decide

@[simp] theorem respData_ok (d : BitVec 32) : respData (okResponse d) = d := by
  ext i hi
  simp only [respData, okResponse, BitVec.getElem_extractLsb', BitVec.getLsbD_append]
  simp [hi]

@[simp] theorem respData_fault (c : FaultCode) : respData (faultResponse c) = 0#30 ++ c.bits := by
  cases c <;> decide

/-! ### Rows, palettes, shades -/

@[simp] theorem rowPixel_decodeRow (lo hi : Byte) (c : U3) :
    rowPixel (decodeRow lo hi) c = BitVec.ofBool (hi.getLsbD (7 - c.toNat)) ++ BitVec.ofBool (lo.getLsbD (7 - c.toNat)) := by
  simp [rowPixel, decodeRow]

@[simp] theorem palEntry_decodePalette (b : Byte) (raw : U2) :
    palEntry (decodePalette b) raw = b.extractLsb' (2 * raw.toNat) 2 := by
  simp [palEntry, decodePalette]

@[simp] theorem rowPixel_reverseRow (row : Row) (c : U3) : rowPixel (reverseRow row) c = rowPixel row (7 - c) := by
  have hc := c.isLt
  have h7 : ((7 : U3) - c).toNat = 7 - c.toNat := by
    simp only [BitVec.toNat_sub, show (7 : U3).toNat = 7 from rfl]; omega
  simp only [rowPixel, reverseRow, Vector.getElem_ofFn, h7]

theorem colour_eq (b : Byte) (raw : U2) : colour b raw = shade (b.extractLsb' (2 * raw.toNat) 2) := by
  simp [colour]

theorem shade_toNat (i : U2) : (shade i).toNat = (shadeRgb i).toNat * 256 + 255 := by simp [shade]

/-- `SHADE[i] = {SHADE_RGB[i], 0xFF}` (R30). -/
theorem shade_eq_append (i : U2) : shade i = shadeRgb i ++ 0xFF#8 := by
  apply BitVec.eq_of_toNat_eq
  rw [shade_toNat, BitVec.toNat_append, Nat.shiftLeft_eq, Nat.mul_comm (shadeRgb i).toNat (2 ^ 8),
    ← Nat.two_pow_add_eq_or_of_lt (by decide)]
  simp only [show (0xFF#8).toNat = 255 from rfl]
  omega

/-- No shade is the transparent pixel (R25). -/
theorem shade_ne_zero (i : U2) : shade i ≠ 0 := by
  intro h
  have := congrArg BitVec.toNat h
  rw [shade_toNat] at this
  simp at this

/-! ### The cache -/

theorem cacheKey_lt (t : Byte) (r : U3) (src : Src) : cacheKey t r src < 4096 := by
  have ht := t.isLt
  have hr := r.isLt
  cases src <;> simp [cacheKey, Src.bit] <;> omega

/-- Different keys have different places (R132). -/
theorem cacheKey_inj {t t' : Byte} {r r' : U3} {src src' : Src} :
    cacheKey t r src = cacheKey t' r' src' ↔ t = t' ∧ r = r' ∧ src = src' := by
  have ht := t.isLt
  have hr := r.isLt
  have ht' := t'.isLt
  have hr' := r'.isLt
  constructor
  · intro h
    cases src <;> cases src' <;> simp [cacheKey, Src.bit] at h ⊢ <;>
      (try constructor) <;> (try apply BitVec.eq_of_toNat_eq) <;> omega
  · rintro ⟨rfl, rfl, rfl⟩; rfl

/-- Every place of the cache is some key's (R27). -/
theorem exists_cacheKey {k : Nat} (h : k < 4096) : ∃ t r src, cacheKey t r src = k := by
  refine ⟨BitVec.ofNat 8 (k % 2048 / 8), BitVec.ofNat 3 (k % 8), if k < 2048 then .bgsrc else .sprsrc, ?_⟩
  split <;> simp [cacheKey, Src.bit] <;> omega

theorem getRow_hit {t : Byte} {r : U3} {src : Src} {s : State} {row : Row}
    (h : s.rc.read (cacheKey t r src) = some row) : getRow t r src s = (row, s) := by
  simp [getRow, h]

theorem getRow_miss {t : Byte} {r : U3} {src : Src} {s : State} (h : s.rc.read (cacheKey t r src) = none) :
    getRow t r src s =
      (decodeRow (s.env.rowOf t r src).lo (s.env.rowOf t r src).hi,
        fillCache (cacheKey t r src) (decodeRow (s.env.rowOf t r src).lo (s.env.rowOf t r src).hi) s) := by
  simp [getRow, h]

/-- The row `GetRow` returns, in terms of the cache and the environment it finds. -/
def rowFor (rc : Memory (Option Row)) (env : Env) (t : Byte) (r : U3) (src : Src) : Row :=
  (rc.read (cacheKey t r src)).getD (decodeRow (env.rowOf t r src).lo (env.rowOf t r src).hi)

theorem getRow_fst (t : Byte) (r : U3) (src : Src) (s : State) : (getRow t r src s).1 = rowFor s.rc s.env t r src := by
  cases h : s.rc.read (cacheKey t r src) with
  | none => simp [getRow_miss h, rowFor, h]
  | some row => simp [getRow_hit h, rowFor, h]

/-- After `GetRow` its key is valid and holds the row returned; every other entry is as before. -/
theorem getRow_rc_read (t : Byte) (r : U3) (src : Src) (s : State) (k : Nat) :
    (getRow t r src s).2.rc.read k =
      if k = cacheKey t r src then some (rowFor s.rc s.env t r src) else s.rc.read k := by
  cases h : s.rc.read (cacheKey t r src) with
  | none => simp [getRow_miss h, rowFor, h, read_write]
  | some row =>
    simp only [getRow_hit h, rowFor, h, Option.getD_some]
    split
    · next hk => rw [hk, h]
    · rfl

/-- `GetRow` changes nothing but the cache. -/
theorem getRow_frame (t : Byte) (r : U3) (src : Src) (s : State) :
    (getRow t r src s).2 = { s with rc := (getRow t r src s).2.rc } := by
  cases h : s.rc.read (cacheKey t r src) with
  | none => rw [getRow_miss h]; rfl
  | some row => rw [getRow_hit h]

@[simp] theorem getRow_env (t : Byte) (r : U3) (src : Src) (s : State) : (getRow t r src s).2.env = s.env := by
  rw [getRow_frame]
@[simp] theorem getRow_bgs (t : Byte) (r : U3) (src : Src) (s : State) : (getRow t r src s).2.bgs = s.bgs := by
  rw [getRow_frame]
@[simp] theorem getRow_sps (t : Byte) (r : U3) (src : Src) (s : State) : (getRow t r src s).2.sps = s.sps := by
  rw [getRow_frame]
@[simp] theorem getRow_raw (t : Byte) (r : U3) (src : Src) (s : State) : (getRow t r src s).2.raw = s.raw := by
  rw [getRow_frame]
@[simp] theorem getRow_claim (t : Byte) (r : U3) (src : Src) (s : State) : (getRow t r src s).2.claim = s.claim := by
  rw [getRow_frame]
@[simp] theorem getRow_fault (t : Byte) (r : U3) (src : Src) (s : State) : (getRow t r src s).2.fault = s.fault := by
  rw [getRow_frame]
@[simp] theorem getRow_fcode (t : Byte) (r : U3) (src : Src) (s : State) : (getRow t r src s).2.fcode = s.fcode := by
  rw [getRow_frame]
@[simp] theorem getRow_pending (t : Byte) (r : U3) (src : Src) (s : State) :
    (getRow t r src s).2.pending = s.pending := by rw [getRow_frame]
@[simp] theorem getRow_resp (t : Byte) (r : U3) (src : Src) (s : State) : (getRow t r src s).2.resp = s.resp := by
  rw [getRow_frame]
@[simp] theorem getRow_draws (t : Byte) (r : U3) (src : Src) (s : State) : (getRow t r src s).2.draws = s.draws := by
  rw [getRow_frame]

/-- `GetRow` keeps the cache's canonical form. -/
theorem getRow_rc_wf {s : State} (h : s.rc.wf Config.rcEntries) (t : Byte) (r : U3) (src : Src) :
    (getRow t r src s).2.rc.wf Config.rcEntries := by
  cases hk : s.rc.read (cacheKey t r src) with
  | none => rw [getRow_miss hk]; exact wf_write h (cacheKey_lt t r src) _
  | some row => rw [getRow_hit hk]; exact h

theorem getRow_rc_fill (t : Byte) (r : U3) (src : Src) (s : State) : (getRow t r src s).2.rc.fill = s.rc.fill := by
  cases hk : s.rc.read (cacheKey t r src) with
  | none => simp [getRow_miss hk]
  | some row => simp [getRow_hit hk]

/-- `GetRow` keeps coherence: what it fills is what the accessor gives now. -/
theorem getRow_coherent {s : State} (h : s.coherent) (t : Byte) (r : U3) (src : Src) :
    (getRow t r src s).2.coherent := by
  intro t' r' src' row hrow
  rw [getRow_rc_read] at hrow
  rw [getRow_env]
  split at hrow
  · next hk =>
    obtain ⟨rfl, rfl, rfl⟩ := cacheKey_inj.mp hk
    cases hc : s.rc.read (cacheKey t' r' src') with
    | none => simpa [rowFor, hc] using hrow.symm
    | some row' =>
      rw [← h t' r' src' row' hc]
      simpa [rowFor, hc] using hrow.symm
  · exact h t' r' src' row hrow

/-- An empty cache is coherent. -/
theorem coherent_of_empty {s : State} (h : ∀ k, s.rc.read k = none) : s.coherent :=
  fun t r src row hrow => by rw [h] at hrow; cases hrow

/-- In a coherent state the cache is transparent (R139). -/
theorem rowFor_coherent {s : State} (h : s.coherent) (t : Byte) (r : U3) (src : Src) :
    rowFor s.rc s.env t r src = decodeRow (s.env.rowOf t r src).lo (s.env.rowOf t r src).hi := by
  cases hc : s.rc.read (cacheKey t r src) with
  | none => simp [rowFor, hc]
  | some row => simpa [rowFor, hc] using h t r src row hc

end Sys2Proof.Machine
end

