-- ==== Sys2Proof/Laws/Loops.lean ====
section
/-! SUPPORT. The two ways a counted loop is reasoned about: an invariant indexed by how many rounds have run, and a property every
round keeps. -/

namespace Sys2Proof.Machine

/-- A loop over `0, 1, ..., N−1` with an invariant indexed by the number of rounds done. -/
theorem foldl_range_induct {σ : Type} (P : Nat → σ → Prop) (f : σ → Nat → σ) (s : σ) (N : Nat) (h0 : P 0 s)
    (hs : ∀ n t, n < N → P n t → P (n + 1) (f t n)) : P N ((List.range N).foldl f s) := by
  induction N with
  | zero => exact h0
  | succ N ih =>
    rw [List.range_succ, List.foldl_append]
    exact hs N _ (Nat.lt_succ_self N) (ih fun n t hn => hs n t (Nat.lt_succ_of_lt hn))

/-- A property every round keeps holds after the loop. -/
theorem foldl_range_keeps {σ : Type} (P : σ → Prop) (f : σ → Nat → σ) {s : σ} {N : Nat} (h0 : P s)
    (hs : ∀ n t, n < N → P t → P (f t n)) : P ((List.range N).foldl f s) :=
  foldl_range_induct (fun _ => P) f s N h0 hs

/-- Two loops run side by side. -/
theorem foldl_range_rel {σ τ : Type} (R : σ → τ → Prop) (f : σ → Nat → σ) (g : τ → Nat → τ) {s : σ} {t : τ} {N : Nat}
    (h0 : R s t) (hs : ∀ n a b, n < N → R a b → R (f a n) (g b n)) :
    R ((List.range N).foldl f s) ((List.range N).foldl g t) := by
  induction N with
  | zero => exact h0
  | succ N ih =>
    rw [List.range_succ, List.foldl_append, List.foldl_append]
    exact hs N _ _ (Nat.lt_succ_self N) (ih fun n a b hn => hs n a b (Nat.lt_succ_of_lt hn))

/-- A lookup of a valid key changes nothing. -/
theorem getRow_of_valid {t : Byte} {r : U3} {src : Src} {s : State} (h : s.rc.read (cacheKey t r src) ≠ none) :
    (getRow t r src s).2 = s := by
  cases hk : s.rc.read (cacheKey t r src) with
  | none => exact absurd hk h
  | some row => rw [getRow_hit hk]

/-- `GetRow` does not change what any later `GetRow` returns (R133). -/
theorem getRow_rowFor (t : Byte) (r : U3) (src : Src) (s : State) (t' : Byte) (r' : U3) (src' : Src) :
    rowFor (getRow t r src s).2.rc s.env t' r' src' = rowFor s.rc s.env t' r' src' := by
  rw [rowFor, getRow_rc_read]
  split
  · next h =>
    obtain ⟨rfl, rfl, rfl⟩ := cacheKey_inj.mp h
    simp
  · rfl

/-- The cache of `t` is the cache of `s` with some misses filled: a valid entry is as it was, a newly valid one holds the row
`GetRow` returned for its key. -/
def cacheGrows (s t : State) : Prop :=
  t.rc.fill = s.rc.fill ∧ (∀ k row, s.rc.read k = some row → t.rc.read k = some row) ∧
    ∀ k row, s.rc.read k = none → t.rc.read k = some row →
      ∃ tile r src, k = cacheKey tile r src ∧ row = decodeRow (s.env.rowOf tile r src).lo (s.env.rowOf tile r src).hi

theorem cacheGrows_refl (s : State) : cacheGrows s s :=
  ⟨rfl, fun _ _ h => h, fun k row h h' => by rw [h] at h'; cases h'⟩

theorem cacheGrows_getRow (t : Byte) (r : U3) (src : Src) (s : State) : cacheGrows s (getRow t r src s).2 := by
  refine ⟨getRow_rc_fill .., fun k row h => ?_, fun k row h h' => ?_⟩
  · rw [getRow_rc_read]
    split
    · next hk => subst hk; simp [rowFor, h]
    · exact h
  · rw [getRow_rc_read] at h'
    split at h'
    · next hk =>
      subst hk
      exact ⟨t, r, src, rfl, by simpa [rowFor, h] using h'.symm⟩
    · rw [h] at h'; cases h'

theorem cacheGrows_trans {s t u : State} (h : cacheGrows s t) (h' : cacheGrows t u) (he : t.env = s.env) :
    cacheGrows s u := by
  refine ⟨h'.1.trans h.1, fun k row hk => h'.2.1 k row (h.2.1 k row hk), fun k row hk hu => ?_⟩
  cases ht : t.rc.read k with
  | none => have := h'.2.2 k row ht hu; rwa [he] at this
  | some row' =>
    have := h'.2.1 k row' ht
    rw [hu] at this
    cases this
    exact h.2.2 k row hk ht

/-- Filling misses does not change what `GetRow` returns. -/
theorem cacheGrows_rowFor {s t : State} (h : cacheGrows s t) (tile : Byte) (r : U3) (src : Src) :
    rowFor t.rc s.env tile r src = rowFor s.rc s.env tile r src := by
  cases hs : s.rc.read (cacheKey tile r src) with
  | some row => simp [rowFor, hs, h.2.1 _ _ hs]
  | none =>
    cases ht : t.rc.read (cacheKey tile r src) with
    | none => simp [rowFor, hs, ht]
    | some row =>
      obtain ⟨tile', r', src', hk, hrow⟩ := h.2.2 _ _ hs ht
      obtain ⟨rfl, rfl, rfl⟩ := cacheKey_inj.mp hk
      simp [rowFor, hs, ht, hrow]

/-- Filling misses keeps coherence. -/
theorem cacheGrows_coherent {s t : State} (h : cacheGrows s t) (he : t.env = s.env) (hc : s.coherent) : t.coherent := by
  intro tile r src row hrow
  rw [he]
  cases hs : s.rc.read (cacheKey tile r src) with
  | some row' =>
    have := h.2.1 _ _ hs
    rw [hrow] at this
    cases this
    exact hc tile r src row hs
  | none =>
    obtain ⟨tile', r', src', hk, hrow'⟩ := h.2.2 _ _ hs hrow
    obtain ⟨rfl, rfl, rfl⟩ := cacheKey_inj.mp hk
    exact hrow'

end Sys2Proof.Machine
end

