-- ==== Sys2Proof/Laws/BgLine.lean ====
section
/-! SUPPORT. What the background column loop does, said once: `renderBgLine_raw`, `renderBgLine_bgs`, its frame and its cache. -/

namespace Sys2Proof.Machine

/-- The tile index column `x` of `line` meets (R157). -/
def bgTileAt (line : Nat) (env : Env) (x : Nat) : Byte :=
  env.tileAt (wrap env.scx (BitVec.ofNat 8 x)).tile (wrap env.scy (BitVec.ofNat 8 line)).tile

/-- The raw intensity of column `x` of `line`, for the cache and the environment the operation finds (R155 step 5). -/
def bgRawAt (line : Nat) (s : State) (x : Nat) : U2 :=
  rowPixel (rowFor s.rc s.env (bgTileAt line s.env x) (wrap s.env.scy (BitVec.ofNat 8 line)).within .bgsrc)
    (wrap s.env.scx (BitVec.ofNat 8 x)).within

/-- A column changes only `BGS`, `RAW` and `RC`. -/
theorem bgColumn_frame (p : BgLine) (s : State) (x : Nat) :
    bgColumn p s x = { s with bgs := (bgColumn p s x).bgs, raw := (bgColumn p s x).raw, rc := (bgColumn p s x).rc } := by
  simp only [bgColumn]
  generalize hg : getRow _ _ _ s = g
  have hf : g.2 = { s with rc := g.2.rc } := by rw [← hg]; exact getRow_frame ..
  simp only [writePixel, writeRaw]
  rw [hf]

/-- The invariant of the column loop after `n` columns. -/
structure BgDone (line : Nat) (s : State) (n : Nat) (t : State) : Prop where
  frame : t = { s with bgs := t.bgs, raw := t.raw, rc := t.rc }
  grows : cacheGrows s t
  valid : ∀ x < n, t.rc.read (cacheKey (bgTileAt line s.env x) (wrap s.env.scy (BitVec.ofNat 8 line)).within .bgsrc) ≠ none
  only : ∀ k, s.rc.read k = none → t.rc.read k ≠ none →
    ∃ x < n, k = cacheKey (bgTileAt line s.env x) (wrap s.env.scy (BitVec.ofNat 8 line)).within .bgsrc
  raw : ∀ x < n, t.raw.read (pixAddr x line) = bgRawAt line s x
  bgs : ∀ x < n, t.bgs.read (pixAddr x line) = colour s.env.bgp (bgRawAt line s x)
  rawElse : ∀ a, (∀ x < n, a ≠ pixAddr x line) → t.raw.read a = s.raw.read a
  bgsElse : ∀ a, (∀ x < n, a ≠ pixAddr x line) → t.bgs.read a = s.bgs.read a

theorem bgDone_zero (line : Nat) (s : State) : BgDone line s 0 s where
  frame := rfl
  grows := cacheGrows_refl s
  valid := fun _ h => absurd h (Nat.not_lt_zero _)
  only := fun _ h h' => absurd h h'
  raw := fun _ h => absurd h (Nat.not_lt_zero _)
  bgs := fun _ h => absurd h (Nat.not_lt_zero _)
  rawElse := fun _ _ => rfl
  bgsElse := fun _ _ => rfl

theorem bgDone_env {line n : Nat} {s t : State} (h : BgDone line s n t) : t.env = s.env := by rw [h.frame]

theorem bgDone_succ {line n : Nat} {s t : State} (hn : n < 160) (h : BgDone line s n t) :
    BgDone line s (n + 1) (bgColumn (bgLine line s.env) t n) := by
  have henv := bgDone_env h
  have htile : t.env.tileAt (wrap s.env.scx (BitVec.ofNat 8 n)).tile (wrap s.env.scy (BitVec.ofNat 8 line)).tile =
      bgTileAt line s.env n := by rw [henv]; rfl
  have hrow : rowFor t.rc t.env (bgTileAt line s.env n) (wrap s.env.scy (BitVec.ofNat 8 line)).within .bgsrc =
      rowFor s.rc s.env (bgTileAt line s.env n) (wrap s.env.scy (BitVec.ofNat 8 line)).within .bgsrc := by
    rw [henv]; exact cacheGrows_rowFor h.grows ..
  have hraw : rowPixel (getRow (bgTileAt line s.env n) (wrap s.env.scy (BitVec.ofNat 8 line)).within .bgsrc t).1
      (wrap s.env.scx (BitVec.ofNat 8 n)).within = bgRawAt line s n := by
    rw [getRow_fst, hrow]; rfl
  have hcol : bgColumn (bgLine line s.env) t n =
      writePixel .bg n line (colour s.env.bgp (bgRawAt line s n)) (writeRaw n line (bgRawAt line s n)
        (getRow (bgTileAt line s.env n) (wrap s.env.scy (BitVec.ofNat 8 line)).within .bgsrc t).2) := by
    simp only [bgColumn, bgLine, htile, hraw]; rfl
  have hne : ∀ x < n, pixAddr x line ≠ pixAddr n line := fun x hx => by
    rw [Ne, pixAddr_inj (by omega) hn]; omega
  refine ⟨?_, ?_, ?_, ?_, ?_, ?_, ?_, ?_⟩
  · have hf := bgColumn_frame (bgLine line s.env) t n
    generalize bgColumn (bgLine line s.env) t n = u at hf
    rw [hf]
    apply State.ext <;> first | rfl | (dsimp only; rw [h.frame])
  · rw [hcol]
    refine cacheGrows_trans h.grows (?_ : cacheGrows t _) henv
    exact cacheGrows_getRow ..
  · intro x hx
    rw [hcol]
    simp only [writePixel_rc, writeRaw_rc, getRow_rc_read]
    split
    · simp
    · next hk =>
      rcases Nat.lt_succ_iff_lt_or_eq.mp hx with hx | rfl
      · exact h.valid x hx
      · exact absurd rfl hk
  · intro k hs hk
    rw [hcol] at hk
    simp only [writePixel_rc, writeRaw_rc, getRow_rc_read] at hk
    split at hk
    · next hk' => exact ⟨n, Nat.lt_succ_self n, hk'⟩
    · obtain ⟨x, hx, he⟩ := h.only k hs hk
      exact ⟨x, Nat.lt_succ_of_lt hx, he⟩
  · intro x hx
    rw [hcol]
    simp only [writePixel_raw, writeRaw_raw, getRow_raw, read_write]
    rcases Nat.lt_succ_iff_lt_or_eq.mp hx with hx | rfl
    · rw [if_neg (hne x hx)]; exact h.raw x hx
    · rw [if_pos rfl]
  · intro x hx
    rw [hcol]
    simp only [writePixel_bg_bgs, writeRaw_bgs, getRow_bgs, read_write]
    rcases Nat.lt_succ_iff_lt_or_eq.mp hx with hx | rfl
    · rw [if_neg (hne x hx)]; exact h.bgs x hx
    · rw [if_pos rfl]
  · intro a ha
    rw [hcol]
    simp only [writePixel_raw, writeRaw_raw, getRow_raw]
    rw [read_write_other (ha n (Nat.lt_succ_self n))]
    exact h.rawElse a fun x hx => ha x (Nat.lt_succ_of_lt hx)
  · intro a ha
    rw [hcol]
    simp only [writePixel_bg_bgs, writeRaw_bgs, getRow_bgs]
    rw [read_write_other (ha n (Nat.lt_succ_self n))]
    exact h.bgsElse a fun x hx => ha x (Nat.lt_succ_of_lt hx)

/-- Everything the column loop of `BGLINE` does (R155). -/
theorem renderBgLine_done (line : Nat) (s : State) : BgDone line s 160 (renderBgLine line s) :=
  foldl_range_induct (BgDone line s) _ s 160 (bgDone_zero line s) fun _ _ hn h => bgDone_succ hn h

/-- A line whose rows are all cached fills nothing. -/
theorem renderBgLine_rc_of_valid {line : Nat} {s : State}
    (h : ∀ x < 160, s.rc.read (cacheKey (bgTileAt line s.env x) (wrap s.env.scy (BitVec.ofNat 8 line)).within .bgsrc) ≠ none) :
    (renderBgLine line s).rc = s.rc := by
  refine (foldl_range_induct (fun _ (t : State) => t.rc = s.rc ∧ t.env = s.env) _ s 160 ⟨rfl, rfl⟩ fun n t hn ht => ?_).1
  have hv := h n hn
  unfold bgTileAt at hv
  rw [← ht.1, ← ht.2] at hv
  constructor
  · simp only [bgColumn, writePixel_rc, writeRaw_rc]
    rw [← ht.1, getRow_of_valid]
    simp only [bgLine, ← ht.2]
    exact hv
  · simp [bgColumn, ht.2]

end Sys2Proof.Machine
end

