-- ==== Sys2Proof/Laws/Encoding.lean ====
section
/-! SUPPORT. The fields of an assembled command word, said once. -/

namespace Sys2Proof

variable (op : Byte) (a : BitVec 24) (d : Rgba)

/-- Bit `i` of an assembled word. -/
theorem assemble_getLsbD (i : Nat) :
    (assemble op a d).getLsbD i =
      if i < 32 then d.getLsbD i else if i < 56 then a.getLsbD (i - 32) else op.getLsbD (i - 56) := by
  simp only [assemble, BitVec.getLsbD_append]
  by_cases h : i < 32
  · simp [h]
  · by_cases h' : i < 56
    · simp [h, h', show i - 32 < 24 by omega]
    · simp [h, h', show ¬i - 32 < 24 by omega, show i - 32 - 24 = i - 56 by omega]

/-- A slice of an assembled word that lies inside `a` is that slice of `a`. -/
theorem assemble_extract_a {lo len : Nat} (h : 32 ≤ lo) (h' : lo + len ≤ 56) :
    (assemble op a d).extractLsb' lo len = a.extractLsb' (lo - 32) len := by
  apply BitVec.eq_of_getLsbD_eq
  intro i hi
  simp only [BitVec.getLsbD_extractLsb', assemble_getLsbD, hi, decide_true, Bool.true_and]
  rw [if_neg (by omega), if_pos (by omega), show lo + i - 32 = lo - 32 + i by omega]

@[simp] theorem opField_assemble : opField (assemble op a d) = op := by
  apply BitVec.eq_of_getLsbD_eq
  intro i hi
  simp only [opField, BitVec.getLsbD_extractLsb', assemble_getLsbD, hi, decide_true, Bool.true_and]
  rw [if_neg (by omega), if_neg (by omega), show 56 + i - 56 = i by omega]

@[simp] theorem dField_assemble : dField (assemble op a d) = d := by
  apply BitVec.eq_of_getLsbD_eq
  intro i hi
  simp only [dField, BitVec.getLsbD_extractLsb', assemble_getLsbD, hi, decide_true, Bool.true_and]
  rw [if_pos (by omega), show 0 + i = i by omega]

@[simp] theorem b0Field_assemble : b0Field (assemble op a d) = a.extractLsb' 0 8 :=
  assemble_extract_a op a d (by decide) (by decide)

@[simp] theorem b1Field_assemble : b1Field (assemble op a d) = a.extractLsb' 8 8 :=
  assemble_extract_a op a d (by decide) (by decide)

@[simp] theorem rowField_assemble : rowField (assemble op a d) = a.extractLsb' 8 3 :=
  assemble_extract_a op a d (by decide) (by decide)

@[simp] theorem lineField_assemble : lineField (assemble op a d) = (a.extractLsb' 0 16).toInt := by
  rw [lineField, assemble_extract_a op a d (by decide) (by decide)]

@[simp] theorem srcField_assemble : srcField (assemble op a d) = if a.getLsbD 11 then .sprsrc else .bgsrc := by
  simp only [srcField, assemble_getLsbD, show ¬(43 < 32) by decide, show 43 < 56 by decide, if_true, if_false]

theorem surfField_assemble {pos : Nat} (h : 32 ≤ pos) (h' : pos < 56) :
    surfField pos (assemble op a d) = if a.getLsbD (pos - 32) then .spr else .bg := by
  simp only [surfField, assemble_getLsbD, show ¬pos < 32 by omega, h', if_true, if_false]

/-- The low part of two joined fields. -/
theorem slice_low {v w : Nat} (x : BitVec v) (y : BitVec w) : (x ++ y).extractLsb' 0 w = y := by
  rw [BitVec.extractLsb'_append_eq_of_add_le (by omega), BitVec.extractLsb'_eq_self]

/-- The middle of three joined fields. -/
theorem slice_mid {u v w n : Nat} (z : BitVec u) (x : BitVec v) (y : BitVec w) (h : n = w) :
    (z ++ x ++ y).extractLsb' n v = x := by
  subst h
  rw [BitVec.extractLsb'_append_eq_of_le (le_refl _), Nat.sub_self, slice_low]

/-- The surface bit of formats `P` and `PD` (R89). -/
theorem surfField_pixel (surf : Surf) (y x : Byte) : surfField 48 (assemble op (0#7 ++ surf.bit ++ y ++ x) d) = surf := by
  rw [surfField_assemble op _ d (show 32 ≤ 48 by decide) (by decide)]
  cases surf <;> simp only [Surf.bit, BitVec.getLsbD_append] <;> rfl

/-- The source bit of format `K` (R89). -/
theorem srcField_key (src : Src) (r : U3) (t : Byte) : srcField (assemble op (0#12 ++ src.bit ++ r ++ t) d) = src := by
  rw [srcField_assemble]
  cases src <;> simp only [Src.bit, BitVec.getLsbD_append] <;> rfl

/-- The decoder on an assembled word whose unnamed bits are zero. -/
theorem decode_assemble {op : Byte} {a : BitVec 24} {d : Rgba} {f : Format} (hf : formatOf op = some f)
    (h : assemble op a d &&& f.mustBeZero = 0) : decode (assemble op a d) = .ok (operandsOf (assemble op a d)) := by
  simp only [decode, opField_assemble, hf, h, if_true]

/-- The inversion of `decode`. -/
theorem decode_ok {w : CmdWord} {i : Instr} (h : decode w = .ok i) :
    ∃ f, formatOf (opField w) = some f ∧ w &&& f.mustBeZero = 0 ∧ operandsOf w = i := by
  unfold decode at h
  split at h
  · cases h
  · next f hf =>
    split at h
    · next hz => cases h; exact ⟨f, hf, hz, rfl⟩
    · cases h

/-- A word whose unnamed bits are all zero, bit by bit. -/
theorem mustBeZero_iff (w : CmdWord) (f : Format) :
    w &&& f.mustBeZero = 0 ↔ ∀ i < 56, f.operandBits.getLsbD i = false → w.getLsbD i = false := by
  constructor
  · intro h i hi hf
    have : (w &&& f.mustBeZero).getLsbD i = false := by rw [h]; exact BitVec.getLsbD_zero
    have h64 : i < 64 := by omega
    have hm : (0x00FFFFFFFFFFFFFF : BitVec 64).getLsbD i = true := by
      have : ∀ j < 56, (0x00FFFFFFFFFFFFFF : BitVec 64).getLsbD j = true := by decide
      exact this i hi
    simpa only [Format.mustBeZero, BitVec.getLsbD_and, BitVec.getLsbD_not, hf, hm, h64, decide_true, Bool.not_false,
      Bool.and_true] using this
  · intro h
    apply BitVec.eq_of_getLsbD_eq
    intro i hi
    by_cases hi' : i < 56
    · cases hf : f.operandBits.getLsbD i
      · simp [h i hi' hf]
      · simp [Format.mustBeZero, hf]
    · have hm : (0x00FFFFFFFFFFFFFF : BitVec 64).getLsbD i = false := by
        have : ∀ j < 64, ¬j < 56 → (0x00FFFFFFFFFFFFFF : BitVec 64).getLsbD j = false := by decide
        exact this i hi hi'
      have hz : (0 : BitVec 64).getLsbD i = false := BitVec.getLsbD_zero
      rw [hz, Format.mustBeZero, BitVec.getLsbD_and, BitVec.getLsbD_and, hm, Bool.false_and, Bool.and_false]

/-- A 16-bit line survives its field (R88). -/
theorem line_roundTrip {line : Int} (h : lineInRange line = true) : (BitVec.ofInt 16 line).toInt = line := by
  simp only [lineInRange, decide_eq_true_eq] at h
  rw [BitVec.toInt_ofInt]
  apply Int.bmod_eq_of_le <;> omega

end Sys2Proof
end

