-- ==== Sys2Proof/Laws/PerInstr.lean ====
section
/-! SUPPORT. Statements made once per constructor of `Instr`, about the instruction as syntax: the family `EncodesItsOpcode`. -/

namespace Sys2Proof.Laws.EncodesItsOpcode

/-- The word of an operation carries its operation code, and that code has a format and a row of the opcode table with the
operation's mnemonic (R81, R84). -/
def Statement (i : Instr) : Prop :=
  opField (encode i) = i.opcode ∧
    ∃ row ∈ opcodeTable, row.mnemonic = i.mnemonic ∧ opField row.pattern = i.opcode ∧ formatOf i.opcode = some row.format

theorem decrow (lo hi : Byte) : Statement (.decrow lo hi) :=
  ⟨opField_assemble .., opcodeTable[0], by decide, rfl, rfl, rfl⟩
theorem decpal (byte : Byte) : Statement (.decpal byte) :=
  ⟨opField_assemble .., opcodeTable[1], by decide, rfl, rfl, rfl⟩
theorem getrow (tile : Byte) (row : U3) (src : Src) : Statement (.getrow tile row src) :=
  ⟨opField_assemble .., opcodeTable[2], by decide, rfl, rfl, rfl⟩
theorem inval : Statement .inval :=
  ⟨opField_assemble .., opcodeTable[3], by decide, rfl, rfl, rfl⟩
theorem wrap (scroll offset : Byte) : Statement (.wrap scroll offset) :=
  ⟨opField_assemble .., opcodeTable[4], by decide, rfl, rfl, rfl⟩
theorem bgline (line : Int) : Statement (.bgline line) :=
  ⟨opField_assemble .., opcodeTable[5], by decide, rfl, rfl, rfl⟩
theorem sprline (line : Int) : Statement (.sprline line) :=
  ⟨opField_assemble .., opcodeTable[6], by decide, rfl, rfl, rfl⟩
theorem clrframe : Statement .clrframe :=
  ⟨opField_assemble .., opcodeTable[7], by decide, rfl, rfl, rfl⟩
theorem clear (surf : Surf) : Statement (.clear surf) :=
  ⟨opField_assemble .., opcodeTable[8], by decide, rfl, rfl, rfl⟩
theorem wrpix (surf : Surf) (x y : Byte) (rgba : Rgba) : Statement (.wrpix surf x y rgba) :=
  ⟨opField_assemble .., opcodeTable[9], by decide, rfl, rfl, rfl⟩
theorem rdpix (surf : Surf) (x y : Byte) : Statement (.rdpix surf x y) :=
  ⟨opField_assemble .., opcodeTable[10], by decide, rfl, rfl, rfl⟩

end Sys2Proof.Laws.EncodesItsOpcode
end

