-- ==== Sys2Proof/Laws/SpriteLine.lean ====
section
/-! SUPPORT. What a sprite pass does, said once: which sprite draws at a column (`spriteDraws`), and that the first that draws keeps
the pixel (`renderSprites_done`). -/

namespace Sys2Proof.Machine

/-- The raw intensity sprite `e` has at its column `c`, flips applied (R175, R176). -/
def spriteRawAt (line : Nat) (s : State) (e : SpriteEntry) (c : U3) : U2 :=
  rowPixel (rowFor s.rc s.env e.tile (spriteRowInTile line e) .sprsrc) (if e.hFlip then 7 - c else c)

/-- The column of sprite `e` that falls on screen column `x` (R177). -/
def spriteColAt (e : SpriteEntry) (x : Nat) : Nat := x + 8 - e.x.toNat

/-- Sprite `e` has a pixel at screen column `x` that is opaque and does not lose to the background (R177, R178, R180). -/
def spriteWins (line : Nat) (s : State) (e : SpriteEntry) (x : Nat) : Bool :=
  decide (spriteRawAt line s e (BitVec.ofNat 3 (spriteColAt e x)) ≠ 0 ∧
    ¬(e.bgPri = true ∧ s.raw.read (pixAddr x line) ≠ 0))

/-- Column `x` is one of the first `n` columns of sprite `e`. -/
def spriteCovers (e : SpriteEntry) (n x : Nat) : Prop := e.x.toNat ≤ x + 8 ∧ x + 8 < e.x.toNat + n

/-- The colour sprite `e` draws at column `x` (R181). -/
def spriteColour (line : Nat) (s : State) (e : SpriteEntry) (x : Nat) : Rgba :=
  colour (if e.palSel then s.env.obp1 else s.env.obp0) (spriteRawAt line s e (BitVec.ofNat 3 (spriteColAt e x)))

/-- Table entry `n` draws at column `x` of `line` (R185). -/
def spriteDraws (line : Nat) (s : State) (n x : Nat) : Prop :=
  spriteOnLine line (s.env.sprite n) = true ∧ spriteCovers (s.env.sprite n) 8 x ∧
    spriteWins line s (s.env.sprite n) x = true

/-- One column changes only `SPS` and `CLAIM`. -/
theorem spritePixel_frame (p : SpritePass) (e : SpriteEntry) (row : Row) (s : State) (c : Nat) :
    spritePixel p e row s c =
      { s with sps := (spritePixel p e row s c).sps, claim := (spritePixel p e row s c).claim } := by
  simp only [spritePixel]
  split
  · rfl
  · split
    · rfl
    · split
      · rfl
      · split
        · rfl
        · rfl

/-- The invariant of the column loop of one sprite: `s` is the state the sprite is drawn into, `t` the state after `n` columns. -/
structure SpriteDone (line : Nat) (s : State) (e : SpriteEntry) (n : Nat) (t : State) : Prop where
  frame : t = { s with sps := t.sps, claim := t.claim }
  claim : ∀ x < 160, t.claim.read x = true ↔
    s.claim.read x = true ∨ (spriteCovers e n x ∧ spriteWins line s e x = true)
  drawn : ∀ x < 160, s.claim.read x = false → spriteCovers e n x → spriteWins line s e x = true →
    t.sps.read (pixAddr x line) = spriteColour line s e x
  kept : ∀ x < 160, (s.claim.read x = true ∨ ¬spriteCovers e n x ∨ spriteWins line s e x = false) →
    t.sps.read (pixAddr x line) = s.sps.read (pixAddr x line)
  else_ : ∀ a, (∀ x < 160, a ≠ pixAddr x line) → t.sps.read a = s.sps.read a

theorem spriteDone_zero (line : Nat) (s : State) (e : SpriteEntry) : SpriteDone line s e 0 s where
  frame := rfl
  claim := fun x _ => by
    have : ¬spriteCovers e 0 x := by unfold spriteCovers; omega
    simp [this]
  drawn := fun x _ _ h => absurd h (by unfold spriteCovers; omega)
  kept := fun _ _ _ => rfl
  else_ := fun _ _ => rfl

/-- One column of one sprite, in closed form: it draws exactly when its column is on the screen, it wins there, and no earlier
sprite of the pass has claimed it (R177 to R181). -/
theorem spritePixel_eq {line n : Nat} {s t : State} {e : SpriteEntry} {row : Row} (hn : n < 8)
    (hrow : ∀ c : U3, rowPixel row c = spriteRawAt line s e c) (hraw : t.raw = s.raw) :
    spritePixel (spritePass line s.env) e row t n =
      if 8 ≤ e.x.toNat + n ∧ e.x.toNat + n < 168 ∧
          spriteWins line s e (e.x.toNat + n - 8) = true ∧ t.claim.read (e.x.toNat + n - 8) = false then
        claimColumn (e.x.toNat + n - 8)
          (writePixel .spr (e.x.toNat + n - 8) line (spriteColour line s e (e.x.toNat + n - 8)) t)
      else t := by
  by_cases hoff : spriteColumn e n < 0 ∨ 160 ≤ spriteColumn e n
  · rw [if_neg (by unfold spriteColumn at hoff; omega)]
    simp [spritePixel, hoff]
  · have hx : (spriteColumn e n).toNat = e.x.toNat + n - 8 := by unfold spriteColumn at hoff ⊢; omega
    have hc : spriteColAt e (e.x.toNat + n - 8) = n := by
      unfold spriteColAt; unfold spriteColumn at hoff; omega
    have hb : 8 ≤ e.x.toNat + n ∧ e.x.toNat + n < 168 := by unfold spriteColumn at hoff; omega
    have hwin : spriteWins line s e (e.x.toNat + n - 8) = true ↔ spriteRawAt line s e (BitVec.ofNat 3 n) ≠ 0 ∧
        ¬(e.bgPri = true ∧ s.raw.read (pixAddr (e.x.toNat + n - 8) line) ≠ 0) := by
      simp only [spriteWins, hc, decide_eq_true_eq]
    have hcolour : spriteColour line s e (e.x.toNat + n - 8) =
        shade (palEntry (if e.palSel then decodePalette s.env.obp1 else decodePalette s.env.obp0)
          (spriteRawAt line s e (BitVec.ofNat 3 n))) := by
      simp only [spriteColour, hc, colour]
      cases e.palSel <;> rfl
    simp only [spritePixel, hoff, if_false, hx, hrow, hraw, spritePass, hwin, hcolour]
    by_cases h0 : spriteRawAt line s e (BitVec.ofNat 3 n) = 0
    · rw [if_pos h0, if_neg fun h => h.2.2.1.1 h0]
    · rw [if_neg h0]
      cases hcl : t.claim.read (e.x.toNat + n - 8)
      · rw [if_neg (by decide)]
        by_cases hp : e.bgPri = true ∧ s.raw.read (pixAddr (e.x.toNat + n - 8) line) ≠ 0
        · rw [if_pos hp, if_neg fun h => h.2.2.1.2 hp]
        · rw [if_neg hp]
          exact (if_pos ⟨hb.1, hb.2, ⟨h0, hp⟩, rfl⟩).symm
      · rw [if_pos rfl, if_neg fun h => Bool.noConfusion h.2.2.2]

theorem spriteDone_succ {line n : Nat} {s t : State} {e : SpriteEntry} {row : Row} (hn : n < 8)
    (hrow : ∀ c : U3, rowPixel row c = spriteRawAt line s e c) (h : SpriteDone line s e n t) :
    SpriteDone line s e (n + 1) (spritePixel (spritePass line s.env) e row t n) := by
  have hraw : t.raw = s.raw := by rw [h.frame]
  have hfr := spritePixel_frame (spritePass line s.env) e row t n
  have hframe : spritePixel (spritePass line s.env) e row t n =
      { s with sps := (spritePixel (spritePass line s.env) e row t n).sps,
               claim := (spritePixel (spritePass line s.env) e row t n).claim } := by
    generalize spritePixel (spritePass line s.env) e row t n = u at hfr
    rw [hfr]
    apply State.ext <;> first | rfl | (dsimp only; rw [h.frame])
  have hstep := spritePixel_eq hn hrow hraw
  generalize spritePixel (spritePass line s.env) e row t n = u at hframe hstep
  have hcov : ∀ x, spriteCovers e (n + 1) x ↔ spriteCovers e n x ∨ x + 8 = e.x.toNat + n := by
    intro x; unfold spriteCovers; omega
  split at hstep
  · next hcond =>
    obtain ⟨hlo, hhi, hwin, hfree⟩ := hcond
    have hxlt : e.x.toNat + n - 8 < 160 := by omega
    have hnew : ∀ x, x + 8 = e.x.toNat + n ↔ x = e.x.toNat + n - 8 := by omega
    have hnotcl := mt (h.claim _ hxlt).mpr (by simp [hfree])
    have hcl : ∀ x, u.claim.read x = if x = e.x.toNat + n - 8 then true else t.claim.read x := by
      intro x; rw [hstep]; simp [read_write]
    have hsp : ∀ a, u.sps.read a =
        if a = pixAddr (e.x.toNat + n - 8) line then spriteColour line s e (e.x.toNat + n - 8) else t.sps.read a := by
      intro a; rw [hstep]; simp [read_write]
    have hadr : ∀ x < 160, pixAddr x line = pixAddr (e.x.toNat + n - 8) line ↔ x = e.x.toNat + n - 8 := by
      intro x hx; rw [pixAddr_inj hx hxlt]; simp
    refine ⟨hframe, fun x hx => ?_, fun x hx hf hc hw => ?_, fun x hx hk => ?_, fun a ha => ?_⟩
    · rw [hcl, hcov, hnew]
      by_cases hxe : x = e.x.toNat + n - 8
      · subst hxe; simp [hwin]
      · simpa [hxe] using h.claim x hx
    · simp only [hsp, hadr x hx]
      by_cases hxe : x = e.x.toNat + n - 8
      · rw [if_pos hxe, hxe]
      · rw [if_neg hxe]
        exact h.drawn x hx hf (((hcov x).mp hc).resolve_right (mt (hnew x).mp hxe)) hw
    · simp only [hsp, hadr x hx]
      by_cases hxe : x = e.x.toNat + n - 8
      · subst hxe
        rcases hk with hk | hk | hk
        · exact absurd (.inl hk) hnotcl
        · exact absurd ((hcov _).mpr (.inr ((hnew _).mpr rfl))) hk
        · rw [hwin] at hk; cases hk
      · rw [if_neg hxe]
        refine h.kept x hx (hk.imp id (Or.imp (fun hk => mt (fun hc => (hcov x).mpr (.inl hc)) hk) id))
    · rw [hsp, if_neg (ha _ hxlt)]
      exact h.else_ a ha
  · next hcond =>
    subst hstep
    have hno : ∀ x < 160, x + 8 = e.x.toNat + n → spriteWins line s e x = true → u.claim.read x = true := by
      intro x hx hxe hw
      cases hc : u.claim.read x with
      | true => rfl
      | false =>
        have : e.x.toNat + n - 8 = x := by omega
        exact absurd ⟨by omega, by omega, by rw [this]; exact hw, by rw [this]; exact hc⟩ hcond
    refine ⟨hframe, fun x hx => ?_, fun x hx hf hc hw => ?_, fun x hx hk => ?_, h.else_⟩
    · rw [h.claim x hx, hcov]
      constructor
      · rintro (h' | ⟨hc, hw⟩)
        · exact .inl h'
        · exact .inr ⟨.inl hc, hw⟩
      · rintro (h' | ⟨hc | hxe, hw⟩)
        · exact .inl h'
        · exact .inr ⟨hc, hw⟩
        · exact (h.claim x hx).mp (hno x hx hxe hw)
    · rcases (hcov x).mp hc with hc | hxe
      · exact h.drawn x hx hf hc hw
      · rcases (h.claim x hx).mp (hno x hx hxe hw) with h' | ⟨hc, -⟩
        · rw [hf] at h'; cases h'
        · exact h.drawn x hx hf hc hw
    · by_cases hc : spriteCovers e n x ∧ spriteWins line s e x = true
      · rcases hk with hk | hk | hk
        · exact h.kept x hx (.inl hk)
        · exact absurd ((hcov x).mpr (.inl hc.1)) hk
        · rw [hc.2] at hk; cases hk
      · refine h.kept x hx (.inr ?_)
        by_cases hc' : spriteCovers e n x
        · exact .inr (by simpa [hc'] using hc)
        · exact .inl hc'

/-- The invariant of the pass after `n` entries: `s` is the state the pass starts from, its claims cleared. -/
structure PassDone (line : Nat) (s : State) (n : Nat) (t : State) : Prop where
  frame : t = { s with sps := t.sps, claim := t.claim, rc := t.rc }
  grows : cacheGrows s t
  valid : ∀ m < n, spriteOnLine line (s.env.sprite m) = true →
    t.rc.read (cacheKey (s.env.sprite m).tile (spriteRowInTile line (s.env.sprite m)) .sprsrc) ≠ none
  only : ∀ k, s.rc.read k = none → t.rc.read k ≠ none → ∃ m < n, spriteOnLine line (s.env.sprite m) = true ∧
    k = cacheKey (s.env.sprite m).tile (spriteRowInTile line (s.env.sprite m)) .sprsrc
  claim : ∀ x < 160, t.claim.read x = true ↔ ∃ m < n, spriteDraws line s m x
  drawn : ∀ x < 160, ∀ m < n, spriteDraws line s m x → (∀ k < m, ¬spriteDraws line s k x) →
    t.sps.read (pixAddr x line) = spriteColour line s (s.env.sprite m) x
  kept : ∀ x < 160, (∀ m < n, ¬spriteDraws line s m x) → t.sps.read (pixAddr x line) = s.sps.read (pixAddr x line)
  else_ : ∀ a, (∀ x < 160, a ≠ pixAddr x line) → t.sps.read a = s.sps.read a

theorem passDone_zero (line : Nat) (s : State) : PassDone line s 0 (clearClaim s) where
  frame := rfl
  grows := cacheGrows_refl s
  valid := fun _ h => absurd h (Nat.not_lt_zero _)
  only := fun _ h h' => absurd h h'
  claim := fun x _ => by simp
  drawn := fun _ _ _ h => absurd h (Nat.not_lt_zero _)
  kept := fun _ _ _ => rfl
  else_ := fun _ _ => rfl

/-- The pass of the whole table leaves what its entries leave, first drawn first served (R179). -/
theorem passDone_succ {line n : Nat} {s t : State} (h : PassDone line s n t) :
    PassDone line s (n + 1) (spriteEntry (spritePass line s.env) t n) := by
  have henv : t.env = s.env := by rw [h.frame]
  have hraw : t.raw = s.raw := by rw [h.frame]
  simp only [spriteEntry, henv, show (spritePass line s.env).line = line from rfl]
  by_cases hon : spriteOnLine line (s.env.sprite n) = true
  · rw [if_pos hon]
    generalize he : s.env.sprite n = e at hon ⊢
    generalize hg : getRow e.tile (spriteRowInTile line e) .sprsrc t = g
    have hgrow : cacheGrows t g.2 := by rw [← hg]; exact cacheGrows_getRow ..
    have hgframe : g.2 = { t with rc := g.2.rc } := by rw [← hg]; exact getRow_frame ..
    have hrows : cacheGrows s g.2 := cacheGrows_trans h.grows hgrow henv
    have hgenv : g.2.env = s.env := by rw [hgframe]; exact henv
    have hgraw : g.2.raw = s.raw := by rw [hgframe]; exact hraw
    have hgclaim : g.2.claim = t.claim := by rw [hgframe]
    have hgsps : g.2.sps = t.sps := by rw [hgframe]
    have hat : ∀ e' c, spriteRawAt line g.2 e' c = spriteRawAt line s e' c := by
      intro e' c; unfold spriteRawAt; rw [hgenv, cacheGrows_rowFor hrows]
    have hwins : ∀ e' x, spriteWins line g.2 e' x = spriteWins line s e' x := by
      intro e' x; unfold spriteWins; rw [hat, hgraw]
    have hcolour : ∀ e' x, spriteColour line g.2 e' x = spriteColour line s e' x := by
      intro e' x; unfold spriteColour; rw [hat, hgenv]
    have hfst : g.1 = rowFor g.2.rc g.2.env e.tile (spriteRowInTile line e) .sprsrc := by
      rw [hgenv, cacheGrows_rowFor hrows, ← hg, getRow_fst, henv, cacheGrows_rowFor h.grows]
    have hrow : ∀ c : U3, rowPixel (if e.hFlip = true then reverseRow g.1 else g.1) c = spriteRawAt line g.2 e c := by
      intro c; rw [hfst]; unfold spriteRawAt
      cases e.hFlip <;> simp
    have hloop := foldl_range_induct (SpriteDone line g.2 e)
      (spritePixel (spritePass line g.2.env) e (if e.hFlip = true then reverseRow g.1 else g.1)) g.2 8
      (spriteDone_zero line g.2 e) fun k u hk hu => spriteDone_succ hk hrow hu
    rw [hgenv] at hloop
    have hrcg : ∀ k, g.2.rc.read k =
        if k = cacheKey e.tile (spriteRowInTile line e) .sprsrc then
          some (rowFor t.rc t.env e.tile (spriteRowInTile line e) .sprsrc) else t.rc.read k := by
      intro k; rw [← hg, getRow_rc_read]
    generalize (List.range 8).foldl
      (spritePixel (spritePass line s.env) e (if e.hFlip = true then reverseRow g.1 else g.1)) g.2 = u at hloop
    have hurc : u.rc = g.2.rc := by rw [hloop.frame]
    have hdraws : ∀ x, spriteDraws line s n x ↔ spriteCovers e 8 x ∧ spriteWins line s e x = true := by
      intro x; unfold spriteDraws; rw [he]; simp [hon]
    refine ⟨?_, ?_, ?_, ?_, ?_, ?_, ?_, ?_⟩
    · rw [hloop.frame, hgframe]
      apply State.ext <;> first | rfl | (dsimp only; rw [h.frame])
    · unfold cacheGrows; rw [hurc]; exact hrows
    · intro m hm hml
      rw [hurc, hrcg]
      split
      · simp
      · next hk =>
        rcases Nat.lt_succ_iff_lt_or_eq.mp hm with hm | rfl
        · exact h.valid m hm hml
        · rw [he] at hk; exact absurd rfl hk
    · intro k hs hk
      rw [hurc, hrcg] at hk
      split at hk
      · next hk' => exact ⟨n, Nat.lt_succ_self n, by rw [he]; exact hon, by rw [he]; exact hk'⟩
      · obtain ⟨m, hm, hm'⟩ := h.only k hs hk
        exact ⟨m, Nat.lt_succ_of_lt hm, hm'⟩
    · intro x hx
      rw [hloop.claim x hx, hgclaim, h.claim x hx, hwins]
      constructor
      · rintro (⟨m, hm, hd⟩ | hd)
        · exact ⟨m, Nat.lt_succ_of_lt hm, hd⟩
        · exact ⟨n, Nat.lt_succ_self n, (hdraws x).mpr hd⟩
      · rintro ⟨m, hm, hd⟩
        rcases Nat.lt_succ_iff_lt_or_eq.mp hm with hm | rfl
        · exact .inl ⟨m, hm, hd⟩
        · exact .inr ((hdraws x).mp hd)
    · intro x hx m hm hd hfirst
      rcases Nat.lt_succ_iff_lt_or_eq.mp hm with hm | rfl
      · have hcl : g.2.claim.read x = true := by rw [hgclaim]; exact (h.claim x hx).mpr ⟨m, hm, hd⟩
        rw [hloop.kept x hx (.inl hcl), hgsps]
        exact h.drawn x hx m hm hd hfirst
      · have hcl : g.2.claim.read x = false := by
          rw [hgclaim]
          cases hc : t.claim.read x with
          | false => rfl
          | true =>
            obtain ⟨k, hk, hk'⟩ := (h.claim x hx).mp hc
            exact absurd hk' (hfirst k hk)
        rw [hloop.drawn x hx hcl ((hdraws x).mp hd).1 (by rw [hwins]; exact ((hdraws x).mp hd).2), hcolour, he]
    · intro x hx hno
      have hn := mt (hdraws x).mpr (hno n (Nat.lt_succ_self n))
      rw [hloop.kept x hx, hgsps]
      · exact h.kept x hx fun m hm => hno m (Nat.lt_succ_of_lt hm)
      · rw [hwins]
        by_cases hc : spriteCovers e 8 x
        · exact .inr (.inr (by simpa [hc] using hn))
        · exact .inr (.inl hc)
    · intro a ha
      rw [hloop.else_ a ha, hgsps]
      exact h.else_ a ha
  · rw [if_neg hon]
    have hnd : ∀ x, ¬spriteDraws line s n x := fun x hd => hon hd.1
    refine ⟨h.frame, h.grows, ?_, ?_, ?_, ?_, ?_, h.else_⟩
    · intro m hm hml
      rcases Nat.lt_succ_iff_lt_or_eq.mp hm with hm | rfl
      · exact h.valid m hm hml
      · exact absurd hml hon
    · intro k hs hk
      obtain ⟨m, hm, hm'⟩ := h.only k hs hk
      exact ⟨m, Nat.lt_succ_of_lt hm, hm'⟩
    · intro x hx
      rw [h.claim x hx]
      constructor
      · rintro ⟨m, hm, hd⟩; exact ⟨m, Nat.lt_succ_of_lt hm, hd⟩
      · rintro ⟨m, hm, hd⟩
        rcases Nat.lt_succ_iff_lt_or_eq.mp hm with hm | rfl
        · exact ⟨m, hm, hd⟩
        · exact absurd hd (hnd x)
    · intro x hx m hm hd hfirst
      rcases Nat.lt_succ_iff_lt_or_eq.mp hm with hm | rfl
      · exact h.drawn x hx m hm hd hfirst
      · exact absurd hd (hnd x)
    · intro x hx hno
      exact h.kept x hx fun m hm => hno m (Nat.lt_succ_of_lt hm)

/-- Everything the enabled branch of `SPRLINE` does (R170). -/
theorem renderSprites_done (line : Nat) (s : State) : PassDone line s 40 (renderSprites line s) :=
  foldl_range_induct (PassDone line s) _ (clearClaim s) 40 (passDone_zero line s) fun _ _ _ h => passDone_succ h

@[simp] theorem spritePixel_rc (p : SpritePass) (e : SpriteEntry) (row : Row) (s : State) (c : Nat) :
    (spritePixel p e row s c).rc = s.rc := by rw [spritePixel_frame]
@[simp] theorem spritePixel_env (p : SpritePass) (e : SpriteEntry) (row : Row) (s : State) (c : Nat) :
    (spritePixel p e row s c).env = s.env := by rw [spritePixel_frame]

/-- A pass whose rows are all cached fills nothing. -/
theorem renderSprites_rc_of_valid {line : Nat} {s : State}
    (h : ∀ n < 40, spriteOnLine line (s.env.sprite n) = true →
      s.rc.read (cacheKey (s.env.sprite n).tile (spriteRowInTile line (s.env.sprite n)) .sprsrc) ≠ none) :
    (renderSprites line s).rc = s.rc := by
  refine (foldl_range_induct (fun _ (t : State) => t.rc = s.rc ∧ t.env = s.env)
    (spriteEntry (spritePass line s.env)) (clearClaim s) 40 ⟨rfl, rfl⟩ fun n t hn ht => ?_).1
  simp only [spriteEntry, ht.2, show (spritePass line s.env).line = line from rfl]
  by_cases hon : spriteOnLine line (s.env.sprite n) = true
  · rw [if_pos hon]
    refine foldl_range_induct (fun _ (t : State) => t.rc = s.rc ∧ t.env = s.env) _ _ 8 ?_ fun k u hk hu => ?_
    · have hv := h n hn hon
      rw [← ht.1] at hv
      rw [getRow_of_valid hv]
      exact ht
    · rw [spritePixel_rc, spritePixel_env]
      exact hu
  · rw [if_neg hon]
    exact ht

/-- The disabled branch: row `line` of `SPS` is transparent, all else is as before (R172). -/
structure RowCleared (line : Nat) (s : State) (n : Nat) (t : State) : Prop where
  frame : t = { s with sps := t.sps }
  cleared : ∀ x < n, t.sps.read (pixAddr x line) = 0
  else_ : ∀ a, (∀ x < n, a ≠ pixAddr x line) → t.sps.read a = s.sps.read a

theorem clearSpriteRow_done (line : Nat) (s : State) : RowCleared line s 160 (clearSpriteRow line s) := by
  have key := foldl_range_induct
    (fun n (m : Memory Rgba) => (∀ x < n, m.read (pixAddr x line) = 0) ∧
      ∀ a, (∀ x < n, a ≠ pixAddr x line) → m.read a = s.sps.read a)
    (fun m x => m.write (pixAddr x line) 0) s.sps 160 ⟨fun _ h => absurd h (Nat.not_lt_zero _), fun _ _ => rfl⟩
    (fun n m hn h => by
      refine ⟨fun x hx => ?_, fun a ha => ?_⟩
      · simp only [read_write, pixAddr_inj (show x < 160 by omega) hn]
        split
        · rfl
        · next hne => exact h.1 x (by simp only [and_true] at hne; omega)
      · rw [read_write_other (ha n (Nat.lt_succ_self n))]
        exact h.2 a fun x hx => ha x (Nat.lt_succ_of_lt hx))
  exact ⟨by unfold clearSpriteRow; rfl, key.1, key.2⟩

end Sys2Proof.Machine
end

