-- ==== Sys2Proof/Laws/Step.lean ====
section
/-! SUPPORT. What every command and every step answers, said once: one equation per operation, the refusal, the two branches of a
line operation, and the inversion of `step`. -/

namespace Sys2Proof.Machine

/-! ### One equation per operation -/

section
variable {s : State} (h : s.fault = false)
include h

theorem execDecrow_run (lo hi : Byte) :
    exec (.decrow lo hi) s = .next (respond (0#16 ++ packRow (decodeRow lo hi)) s) := by
  simp only [exec, execDecrow, unlessFaulted_run h]

theorem execDecpal_run (b : Byte) : exec (.decpal b) s = .next (respond (0#24 ++ packPal (decodePalette b)) s) := by
  simp only [exec, execDecpal, unlessFaulted_run h]

theorem execGetrow_run (tile : Byte) (r : U3) (src : Src) :
    exec (.getrow tile r src) s =
      .next (respond (0#16 ++ packRow (getRow tile r src s).1) (getRow tile r src s).2) := by
  simp only [exec, execGetrow, unlessFaulted_run h]

theorem execInval_run : exec .inval s = .next (respond 0 (invalidate s)) := by
  simp only [exec, execInval, unlessFaulted_run h]

theorem execWrap_run (scroll offset : Byte) :
    exec (.wrap scroll offset) s = .next (respond (0#16 ++ packWrap (wrap scroll offset)) s) := by
  simp only [exec, execWrap, unlessFaulted_run h]

theorem execBgline_run (line : Int) :
    exec (.bgline line) s = .next (respond 0 (if visibleLine line then renderBgLine line.toNat s else s)) := by
  simp only [exec, execBgline, unlessFaulted_run h]

theorem execSprline_run (line : Int) :
    exec (.sprline line) s = .next (respond 0
      (if visibleLine line then
        if s.env.spritesEnabled then renderSprites line.toNat s else clearSpriteRow line.toNat s
      else s)) := by
  simp only [exec, execSprline, unlessFaulted_run h]

theorem execClrframe_run : exec .clrframe s = .next (respond 0 (clearSurface .spr (clearSurface .bg s))) := by
  simp only [exec, execClrframe, unlessFaulted_run h]

theorem execClear_run (surf : Surf) : exec (.clear surf) s = .next (respond 0 (clearSurface surf s)) := by
  simp only [exec, execClear, unlessFaulted_run h]

theorem execWrpix_run (surf : Surf) (x y : Byte) (v : Rgba) :
    exec (.wrpix surf x y v) s = .next
      (if inExtent x y then respond 0 (writePixel surf x.toNat y.toNat v s) else raiseFault .extent s) := by
  simp only [exec, execWrpix, unlessFaulted_run h]

theorem execRdpix_run (surf : Surf) (x y : Byte) :
    exec (.rdpix surf x y) s = .next
      (if inExtent x y then respond (readPixel surf x.toNat y.toNat s) s else raiseFault .extent s) := by
  simp only [exec, execRdpix, unlessFaulted_run h]

end

/-- `BGLINE` on the screen. The state drawn is given a name, so that no proof evaluates the loop. -/
theorem bgline_visible {s : State} (h : s.fault = false) {line : Int} (h0 : 0 ≤ line) (h1 : line < 144) :
    ∃ u, renderBgLine line.toNat s = u ∧ exec (.bgline line) s = .next (respond 0 u) ∧ BgDone line.toNat s 160 u :=
  ⟨_, rfl, by rw [execBgline_run h, if_pos ((visibleLine_iff line).mpr ⟨h0, h1⟩)], renderBgLine_done ..⟩

/-- `SPRLINE` on the screen, sprites enabled. -/
theorem sprline_visible {s : State} (h : s.fault = false) {line : Int} (h0 : 0 ≤ line) (h1 : line < 144)
    (he : s.env.spritesEnabled = true) :
    ∃ u, renderSprites line.toNat s = u ∧ exec (.sprline line) s = .next (respond 0 u) ∧ PassDone line.toNat s 40 u :=
  ⟨_, rfl, by rw [execSprline_run h, if_pos ((visibleLine_iff line).mpr ⟨h0, h1⟩), if_pos he], renderSprites_done ..⟩

/-- `SPRLINE` on the screen, sprites disabled. -/
theorem sprline_disabled {s : State} (h : s.fault = false) {line : Int} (h0 : 0 ≤ line) (h1 : line < 144)
    (he : s.env.spritesEnabled = false) :
    ∃ u, clearSpriteRow line.toNat s = u ∧ exec (.sprline line) s = .next (respond 0 u) ∧
      RowCleared line.toNat s 160 u :=
  ⟨_, rfl, by rw [execSprline_run h, if_pos ((visibleLine_iff line).mpr ⟨h0, h1⟩), if_neg (by simp [he])],
    clearSpriteRow_done ..⟩

/-- A line operation off the screen (R159, R171). -/
theorem bgline_offScreen {s : State} (h : s.fault = false) {line : Int} (hl : line < 0 ∨ 144 ≤ line) :
    exec (.bgline line) s = .next (respond 0 s) := by
  rw [execBgline_run h, if_neg (by rw [visibleLine_iff]; omega)]

theorem sprline_offScreen {s : State} (h : s.fault = false) {line : Int} (hl : line < 0 ∨ 144 ≤ line) :
    exec (.sprline line) s = .next (respond 0 s) := by
  rw [execSprline_run h, if_neg (by rw [visibleLine_iff]; omega)]

/-- While `FAULT = 1` every operation is refused (R220). -/
theorem exec_refused {s : State} (h : s.fault = true) (i : Instr) : exec i s = .next (refuse s) := by
  cases i <;>
    simp only [exec, execDecrow, execDecpal, execGetrow, execInval, execWrap, execBgline, execSprline, execClrframe,
      execClear, execWrpix, execRdpix, unlessFaulted_refuse h]

/-! ### What an operation can do, as a list of cases -/

/-- The effect of an operation that runs (`FAULT = 0`), as one of ten kinds; the index is its next state. -/
inductive Effect (i : Instr) (s : State) : State → Prop where
  /-- `DECROW`, `DECPAL`, `WRAP`, `RDPIX`, and a line operation off the screen: only the response. -/
  | answer (d : BitVec 32) : Effect i s (respond d s)
  /-- `GETROW`: one cache lookup. -/
  | cached (tile : Byte) (r : U3) (src : Src) (d : BitVec 32) : i = .getrow tile r src →
      Effect i s (respond d (getRow tile r src s).2)
  /-- `INVAL`. -/
  | dropped : i = .inval → Effect i s (respond 0 (invalidate s))
  /-- `BGLINE` on the screen. -/
  | bg (line : Nat) (u : State) : i = .bgline line → line < 144 → renderBgLine line s = u → Effect i s (respond 0 u)
  /-- `SPRLINE` on the screen, sprites enabled. -/
  | spr (line : Nat) (u : State) : i = .sprline line → line < 144 → s.env.spritesEnabled = true →
      renderSprites line s = u → Effect i s (respond 0 u)
  /-- `SPRLINE` on the screen, sprites disabled. -/
  | sprOff (line : Nat) (u : State) : i = .sprline line → line < 144 → s.env.spritesEnabled = false →
      clearSpriteRow line s = u → Effect i s (respond 0 u)
  /-- `CLEAR`. -/
  | clear (surf : Surf) : i = .clear surf → Effect i s (respond 0 (clearSurface surf s))
  /-- `CLRFRAME`. -/
  | clrframe : i = .clrframe → Effect i s (respond 0 (clearSurface .spr (clearSurface .bg s)))
  /-- `WRPIX` inside the surface. -/
  | wrpix (surf : Surf) (x y : Byte) (v : Rgba) : i = .wrpix surf x y v → x.toNat < 160 → y.toNat < 144 →
      Effect i s (respond 0 (writePixel surf x.toNat y.toNat v s))
  /-- `WRPIX` or `RDPIX` outside the surface. -/
  | extent (surf : Surf) (x y : Byte) : ((∃ v, i = .wrpix surf x y v) ∨ i = .rdpix surf x y) →
      inExtent x y = false → Effect i s (raiseFault .extent s)

/-- Every operation answers a next state: a refusal while `FAULT = 1`, else its effect. -/
theorem exec_cases (i : Instr) (s : State) :
    ∃ t, exec i s = .next t ∧ ((s.fault = true ∧ t = refuse s) ∨ (s.fault = false ∧ Effect i s t)) := by
  cases h : s.fault with
  | true => exact ⟨_, exec_refused h i, .inl ⟨rfl, rfl⟩⟩
  | false =>
    cases i with
    | decrow lo hi => exact ⟨_, execDecrow_run h .., .inr ⟨rfl, .answer _⟩⟩
    | decpal b => exact ⟨_, execDecpal_run h .., .inr ⟨rfl, .answer _⟩⟩
    | getrow tile r src => exact ⟨_, execGetrow_run h .., .inr ⟨rfl, .cached tile r src _ rfl⟩⟩
    | inval => exact ⟨_, execInval_run h, .inr ⟨rfl, .dropped rfl⟩⟩
    | wrap a b => exact ⟨_, execWrap_run h .., .inr ⟨rfl, .answer _⟩⟩
    | bgline line =>
      refine ⟨_, execBgline_run h .., .inr ⟨rfl, ?_⟩⟩
      by_cases hv : visibleLine line = true
      · rw [if_pos hv]
        rw [visibleLine_iff] at hv
        exact .bg line.toNat _ (by congr; omega) (by omega) rfl
      · rw [if_neg hv]; exact .answer 0
    | sprline line =>
      refine ⟨_, execSprline_run h .., .inr ⟨rfl, ?_⟩⟩
      by_cases hv : visibleLine line = true
      · rw [if_pos hv]
        rw [visibleLine_iff] at hv
        have hl : (Instr.sprline line) = .sprline (line.toNat : Int) := by congr; omega
        cases he : s.env.spritesEnabled
        · exact .sprOff line.toNat _ hl (by omega) he rfl
        · exact .spr line.toNat _ hl (by omega) he rfl
      · rw [if_neg hv]; exact .answer 0
    | clrframe => exact ⟨_, execClrframe_run h, .inr ⟨rfl, .clrframe rfl⟩⟩
    | clear surf => exact ⟨_, execClear_run h surf, .inr ⟨rfl, .clear surf rfl⟩⟩
    | wrpix surf x y v =>
      refine ⟨_, execWrpix_run h .., .inr ⟨rfl, ?_⟩⟩
      cases hx : inExtent x y
      · exact .extent surf x y (.inl ⟨v, rfl⟩) hx
      · have := (inExtent_iff x y).mp hx
        exact .wrpix surf x y v rfl this.1 this.2
    | rdpix surf x y =>
      refine ⟨_, execRdpix_run h .., .inr ⟨rfl, ?_⟩⟩
      cases hx : inExtent x y
      · exact .extent surf x y (.inr rfl) hx
      · exact .answer _

/-- The inversion of `exec`. -/
theorem exec_next {i : Instr} {s t : State} (h : exec i s = .next t) :
    (s.fault = true ∧ t = refuse s) ∨ (s.fault = false ∧ Effect i s t) := by
  obtain ⟨u, hu, hc⟩ := exec_cases i s
  rw [hu] at h
  cases h
  exact hc

/-! ### The step -/

theorem illegalCommand_run {s : State} (h : s.fault = false) :
    illegalCommand s = .next (raiseFault .illegalCommand s) := unlessFaulted_run h _

theorem illegalCommand_refused {s : State} (h : s.fault = true) : illegalCommand s = .next (refuse s) :=
  unlessFaulted_refuse h _

theorem step_command {s : State} {w : CmdWord} {rest : List Event} (h : s.pending = .command w :: rest) :
    step s = runWord w (setPending rest s) := by simp [step, runNext, h, runEvent]

theorem step_notify {s : State} {rest : List Event} (h : s.pending = .notify :: rest) :
    step s = exec .inval (setPending rest s) := by simp [step, runNext, h, runEvent]

theorem step_collaborator {s : State} {env : Env} {rest : List Event} (h : s.pending = .collaborator env :: rest) :
    step s = .next (setEnv env (setPending rest s)) := by simp [step, runNext, h, runEvent]

theorem step_reset {s : State} {rest : List Event} (h : s.pending = .reset :: rest) :
    step s = .next (resetBlock (setPending rest s)) := by simp [step, runNext, h, runEvent]

theorem step_idle {s : State} (h : s.pending = []) : step s = .next s := by simp [step, runNext, h]

theorem runWord_ok {w : CmdWord} {i : Instr} (h : decode w = .ok i) (s : State) : runWord w s = exec i s := by
  simp [runWord, h]

theorem runWord_error {w : CmdWord} {e : Reject} (h : decode w = .error e) (s : State) :
    runWord w s = illegalCommand s := by simp [runWord, h]

/-- Everything a step can do. -/
inductive StepCase (s : State) : State → Prop where
  | idle : s.pending = [] → StepCase s s
  | refused (e : Event) (rest : List Event) : s.pending = e :: rest → e = .notify ∨ (∃ w, e = .command w) →
      s.fault = true → StepCase s (refuse (setPending rest s))
  | ran (w : CmdWord) (i : Instr) (rest : List Event) (t : State) : s.pending = .command w :: rest → decode w = .ok i →
      s.fault = false → Effect i (setPending rest s) t → StepCase s t
  | illegal (w : CmdWord) (r : Reject) (rest : List Event) : s.pending = .command w :: rest → decode w = .error r →
      s.fault = false → StepCase s (raiseFault .illegalCommand (setPending rest s))
  | notified (rest : List Event) : s.pending = .notify :: rest → s.fault = false →
      StepCase s (respond 0 (invalidate (setPending rest s)))
  | collaborator (env : Env) (rest : List Event) : s.pending = .collaborator env :: rest →
      StepCase s (setEnv env (setPending rest s))
  | reset (rest : List Event) : s.pending = .reset :: rest → StepCase s (resetBlock (setPending rest s))

/-- Every step answers a next state, one of these. -/
theorem step_cases (s : State) : ∃ t, step s = .next t ∧ StepCase s t := by
  cases hp : s.pending with
  | nil => exact ⟨s, step_idle hp, .idle hp⟩
  | cons e rest =>
    cases e with
    | command w =>
      cases hd : decode w with
      | ok i =>
        obtain ⟨t, ht, hc⟩ := exec_cases i (setPending rest s)
        refine ⟨t, by rw [step_command hp, runWord_ok hd, ht], ?_⟩
        rcases hc with ⟨hf, rfl⟩ | ⟨hf, he⟩
        · exact .refused _ rest hp (.inr ⟨w, rfl⟩) hf
        · exact .ran w i rest t hp hd hf he
      | error r =>
        cases hf : s.fault with
        | true =>
          exact ⟨_, by rw [step_command hp, runWord_error hd, illegalCommand_refused (s := setPending rest s) hf],
            .refused _ rest hp (.inr ⟨w, rfl⟩) hf⟩
        | false =>
          exact ⟨_, by rw [step_command hp, runWord_error hd, illegalCommand_run (s := setPending rest s) hf],
            .illegal w r rest hp hd hf⟩
    | notify =>
      cases hf : s.fault with
      | true => exact ⟨_, by rw [step_notify hp, exec_refused (s := setPending rest s) hf],
        .refused _ rest hp (.inl rfl) hf⟩
      | false => exact ⟨_, by rw [step_notify hp, execInval_run (s := setPending rest s) hf], .notified rest hp hf⟩
    | collaborator env => exact ⟨_, step_collaborator hp, .collaborator env rest hp⟩
    | reset => exact ⟨_, step_reset hp, .reset rest hp⟩

/-- The inversion of `step`. -/
theorem step_next {s t : State} (h : step s = .next t) : StepCase s t := by
  obtain ⟨u, hu, hc⟩ := step_cases s
  rw [hu] at h
  cases h
  exact hc

/-! ### What the loops keep -/

theorem renderBgLine_frame (line : Nat) (s : State) : renderBgLine line s =
    { s with bgs := (renderBgLine line s).bgs, raw := (renderBgLine line s).raw, rc := (renderBgLine line s).rc } :=
  (renderBgLine_done line s).frame

theorem renderSprites_frame (line : Nat) (s : State) : renderSprites line s =
    { s with sps := (renderSprites line s).sps, claim := (renderSprites line s).claim, rc := (renderSprites line s).rc } :=
  (renderSprites_done line s).frame

theorem clearSpriteRow_frame (line : Nat) (s : State) :
    clearSpriteRow line s = { s with sps := (clearSpriteRow line s).sps } := (clearSpriteRow_done line s).frame

@[simp] theorem renderBgLine_sps (line : Nat) (s : State) : (renderBgLine line s).sps = s.sps := by
  have h := renderBgLine_frame line s; generalize renderBgLine line s = t at h ⊢; rw [h]
@[simp] theorem renderBgLine_claim (line : Nat) (s : State) : (renderBgLine line s).claim = s.claim := by
  have h := renderBgLine_frame line s; generalize renderBgLine line s = t at h ⊢; rw [h]
@[simp] theorem renderBgLine_fault (line : Nat) (s : State) : (renderBgLine line s).fault = s.fault := by
  have h := renderBgLine_frame line s; generalize renderBgLine line s = t at h ⊢; rw [h]
@[simp] theorem renderBgLine_fcode (line : Nat) (s : State) : (renderBgLine line s).fcode = s.fcode := by
  have h := renderBgLine_frame line s; generalize renderBgLine line s = t at h ⊢; rw [h]
@[simp] theorem renderBgLine_env (line : Nat) (s : State) : (renderBgLine line s).env = s.env := by
  have h := renderBgLine_frame line s; generalize renderBgLine line s = t at h ⊢; rw [h]
@[simp] theorem renderBgLine_pending (line : Nat) (s : State) : (renderBgLine line s).pending = s.pending := by
  have h := renderBgLine_frame line s; generalize renderBgLine line s = t at h ⊢; rw [h]
@[simp] theorem renderBgLine_resp (line : Nat) (s : State) : (renderBgLine line s).resp = s.resp := by
  have h := renderBgLine_frame line s; generalize renderBgLine line s = t at h ⊢; rw [h]
@[simp] theorem renderBgLine_draws (line : Nat) (s : State) : (renderBgLine line s).draws = s.draws := by
  have h := renderBgLine_frame line s; generalize renderBgLine line s = t at h ⊢; rw [h]

@[simp] theorem renderSprites_bgs (line : Nat) (s : State) : (renderSprites line s).bgs = s.bgs := by
  have h := renderSprites_frame line s; generalize renderSprites line s = t at h ⊢; rw [h]
@[simp] theorem renderSprites_raw (line : Nat) (s : State) : (renderSprites line s).raw = s.raw := by
  have h := renderSprites_frame line s; generalize renderSprites line s = t at h ⊢; rw [h]
@[simp] theorem renderSprites_fault (line : Nat) (s : State) : (renderSprites line s).fault = s.fault := by
  have h := renderSprites_frame line s; generalize renderSprites line s = t at h ⊢; rw [h]
@[simp] theorem renderSprites_fcode (line : Nat) (s : State) : (renderSprites line s).fcode = s.fcode := by
  have h := renderSprites_frame line s; generalize renderSprites line s = t at h ⊢; rw [h]
@[simp] theorem renderSprites_env (line : Nat) (s : State) : (renderSprites line s).env = s.env := by
  have h := renderSprites_frame line s; generalize renderSprites line s = t at h ⊢; rw [h]
@[simp] theorem renderSprites_pending (line : Nat) (s : State) : (renderSprites line s).pending = s.pending := by
  have h := renderSprites_frame line s; generalize renderSprites line s = t at h ⊢; rw [h]
@[simp] theorem renderSprites_resp (line : Nat) (s : State) : (renderSprites line s).resp = s.resp := by
  have h := renderSprites_frame line s; generalize renderSprites line s = t at h ⊢; rw [h]
@[simp] theorem renderSprites_draws (line : Nat) (s : State) : (renderSprites line s).draws = s.draws := by
  have h := renderSprites_frame line s; generalize renderSprites line s = t at h ⊢; rw [h]

@[simp] theorem clearSpriteRow_bgs (line : Nat) (s : State) : (clearSpriteRow line s).bgs = s.bgs := by
  simp only [clearSpriteRow]
@[simp] theorem clearSpriteRow_raw (line : Nat) (s : State) : (clearSpriteRow line s).raw = s.raw := by
  simp only [clearSpriteRow]
@[simp] theorem clearSpriteRow_rc (line : Nat) (s : State) : (clearSpriteRow line s).rc = s.rc := by
  simp only [clearSpriteRow]
@[simp] theorem clearSpriteRow_claim (line : Nat) (s : State) : (clearSpriteRow line s).claim = s.claim := by
  simp only [clearSpriteRow]
@[simp] theorem clearSpriteRow_fault (line : Nat) (s : State) : (clearSpriteRow line s).fault = s.fault := by
  simp only [clearSpriteRow]
@[simp] theorem clearSpriteRow_fcode (line : Nat) (s : State) : (clearSpriteRow line s).fcode = s.fcode := by
  simp only [clearSpriteRow]
@[simp] theorem clearSpriteRow_env (line : Nat) (s : State) : (clearSpriteRow line s).env = s.env := by
  simp only [clearSpriteRow]
@[simp] theorem clearSpriteRow_pending (line : Nat) (s : State) : (clearSpriteRow line s).pending = s.pending := by
  simp only [clearSpriteRow]
@[simp] theorem clearSpriteRow_resp (line : Nat) (s : State) : (clearSpriteRow line s).resp = s.resp := by
  simp only [clearSpriteRow]
@[simp] theorem clearSpriteRow_draws (line : Nat) (s : State) : (clearSpriteRow line s).draws = s.draws := by
  simp only [clearSpriteRow]

/-! ### What an effect keeps -/

/-- The latch is as it was, or `EXTENT` was raised by a pixel access (R222). -/
theorem effect_latch {i : Instr} {s t : State} (h : Effect i s t) :
    (t.fault = s.fault ∧ t.fcode = s.fcode ∧ ∃ d, t.resp = some (okResponse d)) ∨
      (t = raiseFault .extent s ∧ ∃ surf x y, (∃ v, i = .wrpix surf x y v) ∨ i = .rdpix surf x y) := by
  cases h with
  | answer d => exact .inl ⟨rfl, rfl, _, rfl⟩
  | cached tile r src d => exact .inl ⟨getRow_fault .., getRow_fcode .., _, rfl⟩
  | dropped => exact .inl ⟨rfl, rfl, _, rfl⟩
  | bg line u _ _ hu =>
    exact .inl ⟨(hu ▸ renderBgLine_fault line s : u.fault = s.fault),
      (hu ▸ renderBgLine_fcode line s : u.fcode = s.fcode), _, rfl⟩
  | spr line u _ _ _ hu =>
    exact .inl ⟨(hu ▸ renderSprites_fault line s : u.fault = s.fault),
      (hu ▸ renderSprites_fcode line s : u.fcode = s.fcode), _, rfl⟩
  | sprOff line u _ _ _ hu =>
    exact .inl ⟨(hu ▸ clearSpriteRow_fault line s : u.fault = s.fault),
      (hu ▸ clearSpriteRow_fcode line s : u.fcode = s.fcode), _, rfl⟩
  | clear surf => cases surf <;> exact .inl ⟨rfl, rfl, _, rfl⟩
  | clrframe => exact .inl ⟨rfl, rfl, _, rfl⟩
  | wrpix surf => cases surf <;> exact .inl ⟨rfl, rfl, _, rfl⟩
  | extent surf x y h => exact .inr ⟨rfl, surf, x, y, h⟩

/-- The environment, the stream and the count of draws are not the operations' to write (R57). -/
theorem effect_outside {i : Instr} {s t : State} (h : Effect i s t) :
    t.env = s.env ∧ t.pending = s.pending ∧ t.draws = s.draws := by
  cases h with
  | answer d => exact ⟨rfl, rfl, rfl⟩
  | cached tile r src d => exact ⟨getRow_env .., getRow_pending .., getRow_draws ..⟩
  | dropped => exact ⟨rfl, rfl, rfl⟩
  | bg line u _ _ hu =>
    exact ⟨(hu ▸ renderBgLine_env line s : u.env = s.env),
      (hu ▸ renderBgLine_pending line s : u.pending = s.pending),
      (hu ▸ renderBgLine_draws line s : u.draws = s.draws)⟩
  | spr line u _ _ _ hu =>
    exact ⟨(hu ▸ renderSprites_env line s : u.env = s.env),
      (hu ▸ renderSprites_pending line s : u.pending = s.pending),
      (hu ▸ renderSprites_draws line s : u.draws = s.draws)⟩
  | sprOff line u _ _ _ hu =>
    exact ⟨(hu ▸ clearSpriteRow_env line s : u.env = s.env),
      (hu ▸ clearSpriteRow_pending line s : u.pending = s.pending),
      (hu ▸ clearSpriteRow_draws line s : u.draws = s.draws)⟩
  | clear surf => cases surf <;> exact ⟨rfl, rfl, rfl⟩
  | clrframe => exact ⟨rfl, rfl, rfl⟩
  | wrpix surf => cases surf <;> exact ⟨rfl, rfl, rfl⟩
  | extent => exact ⟨rfl, rfl, rfl⟩

/-- The cache only grows, but for `INVAL` (R138). -/
theorem effect_cache {i : Instr} {s t : State} (h : Effect i s t) :
    cacheGrows s t ∨ (i = .inval ∧ t = respond 0 (invalidate s)) := by
  cases h with
  | answer d => exact .inl (cacheGrows_refl s)
  | cached tile r src d => exact .inl (cacheGrows_getRow ..)
  | dropped h => exact .inr ⟨h, rfl⟩
  | bg line u _ _ hu =>
    have hd : BgDone line s 160 u := hu ▸ renderBgLine_done line s
    exact .inl hd.grows
  | spr line u _ _ _ hu =>
    have hd : PassDone line s 40 u := hu ▸ renderSprites_done line s
    exact .inl hd.grows
  | sprOff line u _ _ _ hu =>
    have hr : u.rc = s.rc := hu ▸ clearSpriteRow_rc line s
    exact .inl ⟨congrArg Memory.fill hr, fun k row hk => by rw [respond_rc, hr]; exact hk,
      fun k row hk hk' => by rw [respond_rc, hr, hk] at hk'; cases hk'⟩
  | clear surf => cases surf <;> exact .inl (cacheGrows_refl s)
  | clrframe => exact .inl (cacheGrows_refl s)
  | wrpix surf => cases surf <;> exact .inl (cacheGrows_refl s)
  | extent => exact .inl (cacheGrows_refl s)

/-! ### Canonical form -/

theorem bgColumn_arraysWf {p : BgLine} {x : Nat} {t : State} (hp : p.line < 144) (hx : x < 160) (h : t.arraysWf) :
    (bgColumn p t x).arraysWf := by
  obtain ⟨h1, h2, h3, h4, h5, h6⟩ := h
  refine ⟨?_, ?_, ?_, ?_, ?_, ?_⟩
  · exact wf_write (by simpa using h1) (pixAddr_lt hx hp) _
  · simpa [bgColumn] using h2
  · exact wf_write (by simpa using h3) (pixAddr_lt hx hp) _
  · simpa [bgColumn] using h4
  · exact getRow_rc_wf h5 ..
  · exact (getRow_rc_fill ..).trans h6

/-- The background loop keeps every array in canonical form and inside its space. -/
theorem renderBgLine_arraysWf {line : Nat} {s : State} (hl : line < 144) (h : s.arraysWf) :
    (renderBgLine line s).arraysWf :=
  foldl_range_keeps State.arraysWf _ h fun _ _ hn ht => bgColumn_arraysWf hl hn ht

theorem spritePixel_arraysWf {p : SpritePass} {e : SpriteEntry} {row : Row} {c : Nat} {t : State} (hp : p.line < 144)
    (h : t.arraysWf) : (spritePixel p e row t c).arraysWf := by
  simp only [spritePixel]
  split
  · exact h
  · next hx =>
    split
    · exact h
    · split
      · exact h
      · split
        · exact h
        · obtain ⟨h1, h2, h3, h4, h5, h6⟩ := h
          exact ⟨h1, wf_write h2 (pixAddr_lt (by omega) hp) _, h3, wf_write h4 (by simp only [Config.screenW]; omega) _,
            h5, h6⟩

theorem spriteEntry_arraysWf {p : SpritePass} {n : Nat} {t : State} (hp : p.line < 144) (h : t.arraysWf) :
    (spriteEntry p t n).arraysWf := by
  simp only [spriteEntry]
  split
  · refine foldl_range_keeps State.arraysWf _ ?_ fun _ _ _ hu => spritePixel_arraysWf hp hu
    obtain ⟨h1, h2, h3, h4, h5, h6⟩ := h
    exact ⟨by simpa using h1, by simpa using h2, by simpa using h3, by simpa using h4, getRow_rc_wf h5 ..,
      (getRow_rc_fill ..).trans h6⟩
  · exact h

/-- The sprite pass keeps every array in canonical form and inside its space. -/
theorem renderSprites_arraysWf {line : Nat} {s : State} (hl : line < 144) (h : s.arraysWf) :
    (renderSprites line s).arraysWf := by
  have h0 : (clearClaim s).arraysWf := by
    obtain ⟨h1, h2, h3, -, h5, h6⟩ := h
    exact ⟨h1, h2, h3, wf_filled Config.screenW false, h5, h6⟩
  unfold renderSprites
  exact foldl_range_keeps State.arraysWf (spriteEntry (spritePass line s.env)) (N := Config.nSprites) h0
    fun _ _ _ ht => spriteEntry_arraysWf (p := spritePass line s.env) hl ht

/-- The row clear keeps every array in canonical form and inside its space. -/
theorem clearSpriteRow_arraysWf {line : Nat} {s : State} (hl : line < 144) (h : s.arraysWf) :
    (clearSpriteRow line s).arraysWf := by
  obtain ⟨h1, h2, h3, h4, h5, h6⟩ := h
  exact ⟨h1, foldl_range_keeps (fun m : Memory Rgba => m.wf Config.nPixels) _ h2
    fun n m hn hm => wf_write hm (pixAddr_lt hn hl) _, h3, h4, h5, h6⟩

/-- Every effect keeps every array in canonical form and inside its space. -/
theorem effect_arraysWf {i : Instr} {s t : State} (h : Effect i s t) (hw : s.arraysWf) : t.arraysWf := by
  have hw0 := hw
  obtain ⟨h1, h2, h3, h4, h5, h6⟩ := hw
  cases h with
  | answer d => exact hw0
  | cached tile r src d =>
    exact ⟨by simpa using h1, by simpa using h2, by simpa using h3, by simpa using h4, getRow_rc_wf h5 ..,
      (getRow_rc_fill ..).trans h6⟩
  | dropped => exact ⟨h1, h2, h3, h4, wf_filled _ _, rfl⟩
  | bg line u _ hl hu => exact (hu ▸ renderBgLine_arraysWf hl hw0 : u.arraysWf)
  | spr line u _ hl _ hu => exact (hu ▸ renderSprites_arraysWf hl hw0 : u.arraysWf)
  | sprOff line u _ hl _ hu => exact (hu ▸ clearSpriteRow_arraysWf hl hw0 : u.arraysWf)
  | clear surf =>
    cases surf
    · exact ⟨wf_filled _ _, h2, wf_filled _ _, h4, h5, h6⟩
    · exact ⟨h1, wf_filled _ _, h3, h4, h5, h6⟩
  | clrframe => exact ⟨wf_filled _ _, wf_filled _ _, wf_filled _ _, h4, h5, h6⟩
  | wrpix surf x y v _ hx hy =>
    cases surf
    · exact ⟨wf_write h1 (pixAddr_lt hx hy) _, h2, h3, h4, h5, h6⟩
    · exact ⟨h1, wf_write h2 (pixAddr_lt hx hy) _, h3, h4, h5, h6⟩
  | extent => exact hw0

/-! ### What a step keeps -/

/-- A step takes one item off the stream, if there is one (R61). -/
theorem step_pending {s u : State} (h : step s = .next u) : u.pending = s.pending.tail := by
  cases step_next h with
  | idle hp => rw [hp]; rfl
  | refused e rest hp => rw [hp]; rfl
  | ran w i rest t hp _ _ hE => rw [hp, (effect_outside hE).2.1]; rfl
  | illegal w r rest hp => rw [hp]; rfl
  | notified rest hp => rw [hp]; rfl
  | collaborator env rest hp => rw [hp]; rfl
  | reset rest hp => rw [hp]; rfl

/-- But for reset, a step keeps a latch that is set, and either answers with the latch's value or leaves both as they were
(R83, R224). -/
theorem step_latch {s u : State} (h : step s = .next u) (hr : ∀ rest, s.pending ≠ .reset :: rest) :
    (s.fault = true → u.fault = true) ∧
      ((∃ r, u.resp = some r ∧ respFault r = u.fault) ∨ (u.resp = s.resp ∧ u.fault = s.fault)) := by
  cases step_next h with
  | idle => exact ⟨id, .inr ⟨rfl, rfl⟩⟩
  | refused e rest _ _ hf => exact ⟨id, .inl ⟨_, rfl, (respFault_fault _).trans hf.symm⟩⟩
  | ran w i rest t _ _ hf hE =>
    refine ⟨fun hs => (Bool.noConfusion (hf.symm.trans hs)), .inl ?_⟩
    rcases effect_latch hE with ⟨a, -, d, hd⟩ | ⟨rfl, -⟩
    · exact ⟨_, hd, by rw [respFault_ok, a]; exact hf.symm⟩
    · exact ⟨_, rfl, respFault_fault _⟩
  | illegal => exact ⟨fun _ => rfl, .inl ⟨_, rfl, respFault_fault _⟩⟩
  | notified rest _ hf => exact ⟨id, .inl ⟨_, rfl, (respFault_ok _).trans hf.symm⟩⟩
  | collaborator => exact ⟨id, .inr ⟨rfl, rfl⟩⟩
  | reset rest hp => exact absurd hp (hr rest)

/-! ### Runs -/

/-- One more step of a run of the host's machine. -/
theorem run_succ {s u : State} (h : step s = .next u) (k : Nat) :
    Host.Core.run Sys2Proof.core (k + 1) s = Host.Core.run Sys2Proof.core k u := by
  have h' : Sys2Proof.core.step s = .next u := h
  simp only [Host.Core.run]
  rw [h']

end Sys2Proof.Machine
end

