-- ==== Sys2Proof/Tests/Slice0.lean ====
section
/-! SUPPORT. Tests. Expected results come from the spec: the worked encodings (R95) and the test vectors (spec file 95, named at
each test). Then one witness for the hypotheses of each statement that has some. -/

namespace Sys2Proof.Tests

open Sys2Proof Sys2Proof.Machine

/-! ### Helpers -/

/-- The state a command word leaves; the spec gives every command a next state. -/
def stepWord (w : Nat) (s : State) : State :=
  match step (s.withFetchWord 64 w) with
  | .next t => t
  | .fault _ => s
  | .refused _ => s

/-- The next state an outcome names, if it names one. -/
def nextState : Host.Outcome State Fault Refusal → Option State
  | .next t => some t
  | .fault _ => none
  | .refused _ => none

theorem next_of {o : Host.Outcome State Fault Refusal} {t : State} (h : nextState o = some t) : o = .next t := by
  cases o <;> simp_all [nextState]

/-- The response data and fault bit of the last command. -/
def answer (s : State) : Option (Bool × Nat) := s.resp.map fun r => (respFault r, (respData r).toNat)

/-- "Start: cleared" (spec file 95): reset, then `clrframe`, with `env` outside. -/
def start (env : Env) : State := stepWord 0x0800000000000000 (setEnv env State.reset)

/-- The base environment of spec file 95. -/
def base : Env := { Env.initial with bgp := 0xE4, obp0 := 0xE4, obp1 := 0xE4, spritesEnabled := true }

/-- Pixels `0..n−1` of row `y`. -/
def pixels (m : Memory Rgba) (y n : Nat) : List Rgba := (List.range n).map fun x => m.read (pixAddr x y)

/-- The environment of V-C: `bgRow(7,2) = (0x3C,0x00)`, `sprRow(7,2) = (0xFF,0xFF)`. -/
def envC : Env := { base with bgRows := ⟨.known ⟨0, 0⟩, [(58, ⟨0x3C, 0x00⟩)]⟩, sprRows := ⟨.known ⟨0, 0⟩, [(58, ⟨0xFF, 0xFF⟩)]⟩ }

/-- Environment B-A of V-B. -/
def envB : Env :=
  { base with
    scx := 5
    scy := 3
    bgp := 0x1B
    tileMap := ⟨.known 0, [(0, 1), (1, 2)]⟩
    bgRows := ⟨.known ⟨0, 0⟩, [(11, ⟨0x3C, 0x00⟩), (19, ⟨0x55, 0x33⟩)]⟩ }

/-- The environment of V-S with one sprite and one pattern row. -/
def envS (e : SpriteEntry) (index : Nat) (pair : BytePair) : Env :=
  { base with sprites := ⟨.known ⟨0, 0, 0, 0⟩, [(0, e)]⟩, sprRows := ⟨.known ⟨0, 0⟩, [(index, pair)]⟩ }

/-- A state whose next item is `e`. -/
def facing (e : Event) (s : State) : State := setPending [e] s

/-- The faulted state after an access outside a surface. -/
def faulted : State := raiseFault .extent State.reset

/-- A state with one valid background row, filled from `envC`. -/
def cached : State := stepWord 0x0300020700000000 (setEnv envC State.reset)

/-- The row of `cached`. -/
def cachedRow : Row := #v[0, 0, 1, 1, 1, 1, 0, 0]

/-! ### WellFormed: each check refuses an ill-formed term (R88) -/

theorem test_wellFormed_bgline_high : (Instr.bgline 32768).wellFormed = false := by decide
theorem test_wellFormed_bgline_low : (Instr.bgline (-32769)).wellFormed = false := by decide
theorem test_wellFormed_sprline_high : (Instr.sprline 32768).wellFormed = false := by decide
theorem test_wellFormed_sprline_low : (Instr.sprline (-32769)).wellFormed = false := by decide

/-! ### Decode: words of R95 and of the vectors, written out from R81, R82, R84 -/

theorem test_decode_decrow : decode 0x0100335500000000 = .ok (.decrow 0x55 0x33) := by decide
theorem test_decode_decpal : decode 0x020000E400000000 = .ok (.decpal 0xE4) := by decide
theorem test_decode_getrow_spr : decode 0x03000B0500000000 = .ok (.getrow 5 3 .sprsrc) := by decide
theorem test_decode_getrow_bg : decode 0x030007FF00000000 = .ok (.getrow 255 7 .bgsrc) := by decide
theorem test_decode_inval : decode 0x0400000000000000 = .ok .inval := by decide
theorem test_decode_wrap : decode 0x0500FF0100000000 = .ok (.wrap 255 1) := by decide
theorem test_decode_bgline : decode 0x0600FFFF00000000 = .ok (.bgline (-1)) := by decide
theorem test_decode_bgline_last : decode 0x06007FFF00000000 = .ok (.bgline 32767) := by decide
theorem test_decode_sprline : decode 0x0700000700000000 = .ok (.sprline 7) := by decide
theorem test_decode_clrframe : decode 0x0800000000000000 = .ok .clrframe := by decide
theorem test_decode_clear : decode 0x0900000100000000 = .ok (.clear .spr) := by decide
theorem test_decode_wrpix : decode 0x0A018F9F12345678 = .ok (.wrpix .spr 159 143 0x12345678) := by decide
theorem test_decode_rdpix : decode 0x0B00000000000000 = .ok (.rdpix .bg 0 0) := by decide

/-- The illegal words of R95 and one set must-be-zero bit per format. -/
theorem test_decode_rejects :
    ([0x0000000000000000, 0x0C00000000000000, 0xFF00000000000000, 0x0400000100000000, 0x0101000000000000,
      0x0200010000000000, 0x0300100000000000, 0x0601000000000000, 0x0900000200000000, 0x0800000000000001,
      0x0A02000000000000, 0x0B00000000000001] : List Nat).all (fun w => decodeTableWord 64 w == none) = true := by decide

theorem test_encode_wrpix : encode (.wrpix .spr 159 143 0x12345678) = 0x0A018F9F12345678 := by decide
theorem test_encode_bgline : encode (.bgline (-1)) = 0x0600FFFF00000000 := by decide

/-! ### One step of each operation -/

/-- T-D2 and V-D7. -/
theorem test_decrow : answer (stepWord 0x0100335500000000 State.reset) = some (false, 0x1B1B) := by decide +kernel
theorem test_decrow_planes : answer (stepWord 0x0100F00F00000000 State.reset) = some (false, 0xAA55) := by decide +kernel

/-- V-P5 and V-P7. -/
theorem test_decpal : decodePalette 0x93 = #v[3, 0, 1, 2] := by decide
theorem test_decpal_illegal : answer (stepWord 0x0200010000000000 State.reset) = some (true, 3) := by decide +kernel

/-- V-C1 and V-C4: the stale row is returned. -/
theorem test_getrow_miss : answer cached = some (false, 0x0550) ∧ cached.rc.cells = [(58, some cachedRow)] := by
  decide +kernel
theorem test_getrow_stale :
    answer (stepWord 0x0300020700000000
      (setEnv { envC with bgRows := ⟨.known ⟨0, 0⟩, [(58, ⟨0x55, 0x33⟩)]⟩ } cached)) = some (false, 0x0550) := by
  decide +kernel

/-- V-C5. -/
theorem test_inval : answer (stepWord 0x0400000000000000 cached) = some (false, 0) ∧
    (stepWord 0x0400000000000000 cached).rc.cells = [] := by decide +kernel

/-- V-W7 and V-W11. -/
theorem test_wrap_seam : answer (stepWord 0x0500FA0500000000 State.reset) = some (false, 0xFFFF) := by decide +kernel
theorem test_wrap_column : answer (stepWord 0x0500039F00000000 State.reset) = some (false, 0x54A2) := by decide +kernel

set_option maxRecDepth 100000 in
/-- V-B1, the first eleven pixels and the rows filled. -/
theorem test_bgline_pixels : pixels (stepWord 0x0600000000000000 (start envB)).bgs 0 12 =
    [shade 2, shade 3, shade 3, shade 3, shade 2, shade 1, shade 0, shade 3, shade 2, shade 1, shade 0, shade 3] := rfl

theorem test_bgline_rows : (stepWord 0x0600000000000000 (start envB)).rc.cells.map Prod.fst = [3, 11, 19] := by
  decide +kernel

set_option maxRecDepth 100000 in
/-- V-S9: clipped at the left edge and flipped. -/
theorem test_sprline_flip_clip :
    pixels (stepWord 0x0700000000000000 (start (envS ⟨16, 3, 3, 0x20⟩ 24 ⟨0x55, 0x33⟩))).sps 0 4 =
      [shade 2, shade 1, 0, 0] := rfl

set_option maxRecDepth 100000 in
/-- V-S21: the second palette; raw intensity 0 is not drawn. -/
theorem test_sprline_palette :
    pixels (stepWord 0x0700000000000000
      (start { envS ⟨16, 8, 1, 0x10⟩ 8 ⟨0x55, 0x33⟩ with obp1 := 0x1B })).sps 0 8 =
      [0, shade 2, shade 1, shade 0, 0, shade 2, shade 1, shade 0] := rfl

/-- R195: both surfaces and `RAW`. -/
theorem test_clrframe : (start base).bgs = ⟨.known 0, []⟩ ∧ (start base).sps = ⟨.known 0, []⟩ ∧
    (start base).raw = ⟨.known 0, []⟩ := by decide +kernel

/-- R196: `CLEAR spr` leaves the background. -/
theorem test_clear : (stepWord 0x0900000100000000 (stepWord 0x0A000000DEADBEEF (start base))).bgs.read 0 = 0xDEADBEEF := by
  decide +kernel

/-- R200, R217: the last pixel, and the first outside. -/
theorem test_wrpix : (stepWord 0x0A018F9F12345678 (start base)).sps.cells = [(23039, 0x12345678)] := by decide +kernel
theorem test_wrpix_extent : answer (stepWord 0x0A0000A000000000 (start base)) = some (true, 1) := by decide +kernel

/-- R203, and the refusal while `FAULT = 1` (R220). -/
theorem test_rdpix : answer (stepWord 0x0B018F9F00000000 (stepWord 0x0A018F9F12345678 (start base))) =
    some (false, 0x12345678) := by decide +kernel
theorem test_refused : answer (stepWord 0x0B00000000000000 faulted) = some (true, 1) := by decide +kernel

/-- R94: `frame` is 289 commands. -/
theorem test_pseudo_frame : pseudoFrame.length = 289 := by decide +kernel

/-- R93. -/
theorem test_asm : asm (.getrow 5 3 .sprsrc) = "getrow 5, 3, spr" := by decide +kernel

/-- R93, R95: keywords in either case, comments, an empty line, hexadecimal and a leading minus. -/
theorem test_assembleText : assembleText "decrow 0x3C, 0x00\nGETROW 5, 3, spr ; row three\n\n bgline -1\nwrpix SPR, 159,143,0x12345678".toList =
    some [0x0100003C00000000, 0x03000B0500000000, 0x0600FFFF00000000, 0x0A018F9F12345678] := by decide +kernel

/-- R88, R93: row 8 is no operand of `getrow`. -/
theorem test_assembleText_range : assembleText "getrow 5, 8, spr".toList = none := by decide +kernel

/-! ### Witnesses: a state and operands that meet the hypotheses of each statement -/

theorem witness_DecodingAnEncodingGivesTheInstruction :
    (Instr.bgline (-32768)).wellFormed = true ∧ (Instr.bgline 32767).wellFormed = true ∧
      (Instr.sprline (-32768)).wellFormed = true ∧ (Instr.wrpix .spr 255 255 0xFFFFFFFF).wellFormed = true := by decide

theorem witness_EncodingADecodingGivesTheWord :
    decode 0x0A01FFFFFFFFFFFF = .ok (.wrpix .spr 255 255 0xFFFFFFFF) := by decide

theorem witness_ATableRowSelectsExactlyItsWords :
    (⟨"RDPIX", .p, 0x0B00000000000000, 0xFFFE0000FFFFFFFF⟩ : OpRow) ∈ opcodeTable ∧
      (0x0B01FFFF00000000 : CmdWord) &&& 0xFFFE0000FFFFFFFF = 0x0B00000000000000 := by decide

theorem witness_AStepRunsTheDecodedInstruction :
    (facing (.command 0x0600FFFF00000000) faulted).pending = [.command 0x0600FFFF00000000] ∧
      decode 0x0600FFFF00000000 = .ok (.bgline (-1)) := by decide

theorem witness_ANotificationIsOneInval : (facing .notify cached).pending = [.notify] := rfl

theorem witness_CollaboratorAndIdleSteps :
    (facing (.collaborator envB) cached).pending = [.collaborator envB] ∧ State.reset.pending = [] := ⟨rfl, rfl⟩

theorem witness_ResetGivesTheResetState : (facing .reset faulted).pending = [.reset] := rfl

theorem witness_IllegalWordsLatchIllegalCommand :
    (facing (.command 0x0400000100000000) State.reset).pending = [.command 0x0400000100000000] ∧
      State.reset.fault = false ∧ (∀ row ∈ opcodeTable, (0x0400000100000000 : CmdWord) &&& row.mask ≠ row.pattern) := by
  decide

/-- Each way of being illegal, at the edges of the assigned codes. -/
theorem witness_IllegalWordsLatchIllegalCommand_kinds :
    opField 0x0012345678000000 = 0 ∧ 0x0C ≤ opField 0x0C00000000000000 ∧ 0x0C ≤ opField 0xFF00000000000000 ∧
      (formatOf (opField 0x0B02000000000000) = some .p ∧
        (0x0B02000000000000 : CmdWord) &&& (~~~Format.p.operandBits &&& 0x00FFFFFFFFFFFFFF) ≠ 0) ∧
      ¬0x0C ≤ opField 0x0B00000000000000 := by decide

theorem witness_TheLatchRefusesEveryCommand :
    (facing (.command 0) faulted).pending = [.command 0] ∧ (facing (.command 0) faulted).fault = true := by decide

theorem witness_PixelsOutsideTheSurfaceLatchExtent :
    State.reset.fault = false ∧ (160 ≤ (160 : Byte).toNat ∨ 144 ≤ (0 : Byte).toNat) ∧
      (160 ≤ (159 : Byte).toNat ∨ 144 ≤ (144 : Byte).toNat) ∧ ¬(160 ≤ (159 : Byte).toNat ∨ 144 ≤ (143 : Byte).toNat) := by
  decide

theorem witness_FaultsArePrecise :
    let s := facing (.command 0x0A0000A000000000) State.reset
    s.pending = [.command 0x0A0000A000000000] ∧ s.fault = false ∧ step s = .next (raiseFault .extent State.reset) ∧
      (raiseFault .extent State.reset).fault = true ∧
      exec (.rdpix .bg 0 144) State.reset = .next (raiseFault .extent State.reset) :=
  ⟨rfl, rfl, next_of (by decide +kernel), rfl, next_of (by decide +kernel)⟩

theorem witness_OnlyResetClearsTheLatch :
    faulted.fault = true ∧ step faulted = .next faulted ∧
      step (facing .reset faulted) = .next (resetBlock (setPending [] faulted)) ∧ (facing .reset faulted).fault = true :=
  ⟨rfl, next_of (by decide +kernel), next_of (by decide +kernel), rfl⟩

theorem witness_TheResponseShowsTheLatch :
    (facing (.command 0) State.reset).pending = [.command 0] ∧
      (facing (.command 0x0400000000000000) State.reset).pending = [.command 0x0400000000000000] := ⟨rfl, rfl⟩

/-- Different bytes that agree on the bits of lane 0, and equal rows. -/
theorem witness_DecodeRowLaneLaws :
    (0x80 : Byte).getLsbD (7 - (0 : Fin 8).val) = (0xFF : Byte).getLsbD (7 - (0 : Fin 8).val) ∧
      (0x7F : Byte).getLsbD (7 - (0 : Fin 8).val) = (0x00 : Byte).getLsbD (7 - (0 : Fin 8).val) ∧
      decodeRow 0x55 0x33 = decodeRow 0x55 0x33 := by decide

theorem witness_DecrowAnswersTheInterleave : State.reset.fault = false ∧ 7 < 8 := by decide

theorem witness_PaletteLaneLaws :
    (0xC0 : Byte).getLsbD (2 * (3 : Fin 4).val) = (0xFF : Byte).getLsbD (2 * (3 : Fin 4).val) ∧
      (0xC0 : Byte).getLsbD (2 * (3 : Fin 4).val + 1) = (0xFF : Byte).getLsbD (2 * (3 : Fin 4).val + 1) ∧
      decodePalette 0x1B = decodePalette 0x1B := by decide

theorem witness_DecpalAnswersItsByte : State.reset.fault = false := rfl

/-- Neighbouring shades and the two ends. -/
theorem witness_ShadesAreOpaqueDistinctAndOrdered : shade 3 = shade 3 ∧ (0 : U2) < 1 ∧ (0 : U2) < 3 := ⟨rfl, by decide, by decide⟩

/-- The seam, and a step inside a tile and across a tile's edge. -/
theorem witness_WrapLaws : (wrap 250 5).w = 255 ∧ (wrap 0 7).within = 7 ∧ (wrap 0 6).within ≠ 7 := by decide

theorem witness_WrapAnswersTheTriple : State.reset.fault = false := rfl

theorem witness_CacheKeysFillTheCache :
    cacheKey 7 2 .sprsrc = cacheKey 7 2 .sprsrc ∧ cacheKey 255 7 .sprsrc = 4095 ∧ 4095 < 4096 := by decide

theorem witness_GetRowHitsOrFills :
    cached.rc.read (Spec.keyIndex 7 2 .bgsrc) = some cachedRow ∧ cached.rc.read (Spec.keyIndex 7 2 .sprsrc) = none ∧
      0 ≠ Spec.keyIndex 7 2 .sprsrc := by decide +kernel

theorem witness_GetrowAnswersTheRow : cached.fault = false ∧ 0 ≠ Spec.keyIndex 7 2 .bgsrc := by decide +kernel

theorem witness_InvalDropsEveryEntry : cached.fault = false := by decide +kernel

theorem witness_EntriesLiveUntilTheCacheIsDropped :
    cached.rc.read 58 = some cachedRow ∧ step cached = .next cached ∧
      step (facing .notify cached) = .next (respond 0 (invalidate (setPending [] cached))) :=
  ⟨by decide +kernel, next_of (by decide +kernel), next_of (by decide +kernel)⟩

theorem witness_NewEntriesHoldTheRowReadNow :
    let s := facing (.command 0x0300020700000000) (setEnv envC State.reset)
    step s = .next cached ∧ s.rc.read (Spec.keyIndex 7 2 .bgsrc) = none ∧
      cached.rc.read (Spec.keyIndex 7 2 .bgsrc) = some cachedRow :=
  ⟨next_of (by decide +kernel), by decide +kernel, by decide +kernel⟩

/-- Both edges of the range, from outside and from inside. -/
theorem witness_BglineOffScreenIsANoOp :
    State.reset.fault = false ∧ ((-1 : Int) < 0 ∨ 144 ≤ (-1 : Int)) ∧ ((144 : Int) < 0 ∨ 144 ≤ (144 : Int)) ∧
      ¬((143 : Int) < 0 ∨ 144 ≤ (143 : Int)) ∧ ¬((0 : Int) < 0 ∨ 144 ≤ (0 : Int)) := by decide

/-- The first and the last line, the pixels next to the row, a valid entry and a sprite entry. -/
theorem witness_BglineFrame :
    cached.fault = false ∧ (0 : Int) ≤ 0 ∧ (143 : Int) < 144 ∧ 160 ≤ 160 ∧ 143 * 160 - 1 < 143 * 160 ∧
      cached.rc.read 58 ≠ none ∧ 2048 ≤ 2048 := by decide +kernel

/-- A coherent state with a valid entry. -/
theorem witness_coherent : State.reset.coherent ∧ (setEnv envC State.reset).coherent ∧
    (getRow 7 2 .bgsrc (setEnv envC State.reset)).2.coherent ∧
      (getRow 7 2 .bgsrc (setEnv envC State.reset)).2.rc.read 58 = some cachedRow :=
  have h : ∀ env, (setEnv env State.reset).coherent := fun _ => coherent_of_empty fun _ => rfl
  ⟨h Env.initial, h envC, getRow_coherent (h envC) 7 2 .bgsrc, by decide +kernel⟩

theorem witness_BglinePixelFormula :
    let s := (getRow 7 2 .bgsrc (setEnv envC State.reset)).2
    s.fault = false ∧ s.coherent ∧ (0 : Int) ≤ 143 ∧ (143 : Int) < 144 ∧ 159 < 160 :=
  ⟨by decide +kernel, witness_coherent.2.2.1, by decide, by decide, by decide⟩

/-- A background row cached, then changed outside: what `GetRow` gives is the stored row, and the cache is not coherent. -/
theorem witness_LinesDrawTheRowsGetRowGives :
    let s := setEnv { envC with scy := 2, tileMap := ⟨.known 7, []⟩, bgRows := ⟨.known ⟨0, 0⟩, []⟩ } cached
    s.fault = false ∧ (0 : Int) ≤ 0 ∧ (143 : Int) < 144 ∧ 159 < 160 ∧
      Spec.rowGiven s (Spec.bgTile s.env 0 159) (Spec.bgTileRow s.env 0) .bgsrc = cachedRow ∧
      decodeRow (s.env.bgRow 7 2).lo (s.env.bgRow 7 2).hi ≠ cachedRow := by decide +kernel

theorem witness_LinesFillTheRowsTheyMeet : cached.fault = false ∧ ∃ t, exec (.bgline 143) cached = .next t :=
  ⟨by decide +kernel, _, execBgline_run (by decide +kernel) 143⟩

theorem witness_BglineIsIdempotent :
    cached.fault = false ∧ ∃ t u, exec (.bgline 0) cached = .next t ∧ exec (.bgline 0) t = .next u := by
  obtain ⟨t, ht, -⟩ := exec_cases (.bgline 0) cached
  obtain ⟨u, hu, -⟩ := exec_cases (.bgline 0) t
  exact ⟨by decide +kernel, t, u, ht, hu⟩

/-- Two different states that agree on what `BGLINE` reads. -/
theorem witness_BglineReadsOnlyItsInputs :
    let s := setEnv envB State.reset
    let s' := clearSurface .bg (setEnv { envB with spritesEnabled := false, obp0 := 0 } State.reset)
    s.fault = false ∧ s'.fault = false ∧ s'.rc = s.rc ∧ s'.env.scx = s.env.scx ∧ s'.env.scy = s.env.scy ∧
      s'.env.bgp = s.env.bgp ∧ s'.env.tileMap = s.env.tileMap ∧ s'.env.bgRows = s.env.bgRows ∧ s' ≠ s ∧
      (∃ t, exec (.bgline 143) s = .next t) ∧ ∃ t', exec (.bgline 143) s' = .next t' :=
  ⟨rfl, rfl, rfl, rfl, rfl, rfl, rfl, rfl, by decide +kernel, ⟨_, execBgline_run rfl 143⟩, ⟨_, execBgline_run rfl 143⟩⟩

theorem witness_SprlineOffScreenIsANoOp :
    State.reset.fault = false ∧ State.reset.env.spritesEnabled = false ∧ (start base).env.spritesEnabled = true ∧
      (start base).fault = false ∧ ((-1 : Int) < 0 ∨ 144 ≤ (-1 : Int)) ∧ ((144 : Int) < 0 ∨ 144 ≤ (144 : Int)) := by
  decide +kernel

theorem witness_DisabledSpritesClearTheRow :
    State.reset.fault = false ∧ State.reset.env.spritesEnabled = false ∧ (start base).fault = false ∧
      (start base).env.spritesEnabled = true ∧ (0 : Int) ≤ 143 ∧ (143 : Int) < 144 := by decide +kernel

theorem witness_SprlineFrame :
    let s := setEnv base cached
    s.fault = false ∧ s.env.spritesEnabled = true ∧ (0 : Int) ≤ 143 ∧ (143 : Int) < 144 ∧ s.rc.read 58 ≠ none ∧
      s.rc.read 2047 = none ∧ 2047 < 2048 := by decide +kernel

/-- The coherent state of a screen with one sprite, tile 1 row 0 all opaque, at the top left. -/
def oneSprite : State := setEnv (envS ⟨16, 8, 1, 0⟩ 8 ⟨0xFF, 0xFF⟩) State.reset

theorem oneSprite_coherent : oneSprite.coherent := coherent_of_empty fun _ => rfl

/-- Entry 0 draws at column 7 and is the first; no entry draws at column 8. -/
theorem witness_SprlinePixelFormula :
    oneSprite.fault = false ∧ oneSprite.coherent ∧ oneSprite.env.spritesEnabled = true ∧
      Spec.spriteDraws oneSprite 0 7 0 ∧ (∀ n < 0, ¬Spec.spriteDraws oneSprite 0 7 n) ∧
      ∀ n < 40, ¬Spec.spriteDraws oneSprite 0 8 n := by
  refine ⟨rfl, oneSprite_coherent, rfl, ⟨?_, ?_, ?_⟩, fun n h => absurd h (Nat.not_lt_zero n), fun n hn h => ?_⟩
  · refine ⟨?_, ?_, ?_, ?_⟩ <;> decide
  · decide
  · exact fun h => absurd h.1 (by decide)
  · have hx : ∀ n < 40, ¬((8 : Nat) : Int) < (oneSprite.env.sprite n).x.toNat := by decide
    exact hx n hn h.1.2.2.2

/-- The row of that sprite cached, then all pattern rows cleared outside. -/
def staleSprite : State :=
  setEnv { envS ⟨16, 8, 1, 0⟩ 8 ⟨0, 0⟩ with sprRows := ⟨.known ⟨0, 0⟩, []⟩ } (getRow 1 0 .sprsrc oneSprite).2

/-- With a stale row entry 0 draws at column 7 though its bytes are now all zero, and no entry draws at column 8. -/
theorem witness_LinesDrawTheRowsGetRowGives_sprites :
    staleSprite.fault = false ∧ staleSprite.env.spritesEnabled = true ∧ Spec.spriteDrawsGiven staleSprite 0 7 0 ∧
      (∀ n < 0, ¬Spec.spriteDrawsGiven staleSprite 0 7 n) ∧ (∀ n < 40, ¬Spec.spriteDrawsGiven staleSprite 0 8 n) ∧
      ¬Spec.spriteDraws staleSprite 0 7 0 := by
  refine ⟨rfl, rfl, ⟨?_, ?_, ?_⟩, fun n h => absurd h (Nat.not_lt_zero n), fun n hn h => ?_, fun h => h.2.1 (by decide)⟩
  · refine ⟨?_, ?_, ?_, ?_⟩ <;> decide
  · decide
  · exact fun h => absurd h.1 (by decide)
  · have hx : ∀ n < 40, ¬((8 : Nat) : Int) < (staleSprite.env.sprite n).x.toNat := by decide
    exact hx n hn h.1.2.2.2

/-- A sprite wholly off the left edge, flipped, whose row (tile 9, row 7) the line still fills. -/
theorem witness_LinesFillTheRowsTheyMeet_sprites :
    let s := setEnv (envS ⟨16, 0, 9, 0x40⟩ 72 ⟨0, 0⟩) State.reset
    s.fault = false ∧ s.env.spritesEnabled = true ∧ (∃ t, exec (.sprline 0) s = .next t) ∧
      ((s.env.sprite 0).y.toNat : Int) - 16 ≤ 0 ∧ 0 < ((s.env.sprite 0).y.toNat : Int) - 8 ∧
      Spec.keyIndex (s.env.sprite 0).tile (Spec.spriteRow (s.env.sprite 0) 0) .sprsrc = 2048 + 9 * 8 + 7 :=
  ⟨rfl, rfl, ⟨_, execSprline_run rfl 0⟩, by decide, by decide, by decide⟩

set_option maxRecDepth 100000 in
/-- R175, R176: the fill of that sprite. -/
theorem test_sprline_fill_clipped :
    (stepWord 0x0700000000000000 (start (envS ⟨16, 0, 9, 0x40⟩ 79 ⟨0x55, 0x33⟩))).rc.cells =
      [(2127, some #v[0, 1, 2, 3, 0, 1, 2, 3])] := by decide +kernel

theorem witness_ClaimsAreThisPassesWrites :
    oneSprite.fault = false ∧ oneSprite.coherent ∧ oneSprite.env.spritesEnabled = true ∧
      ∃ t, exec (.sprline 0) oneSprite = .next t :=
  ⟨rfl, oneSprite_coherent, rfl, _, execSprline_run rfl 0⟩

theorem witness_SprlineIsIdempotent :
    oneSprite.fault = false ∧ ∃ t u, exec (.sprline 0) oneSprite = .next t ∧ exec (.sprline 0) t = .next u := by
  obtain ⟨t, ht, -⟩ := exec_cases (.sprline 0) oneSprite
  obtain ⟨u, hu, -⟩ := exec_cases (.sprline 0) t
  exact ⟨rfl, t, u, ht, hu⟩

theorem witness_ASpritePassIgnoresTheSurfaces :
    oneSprite.fault = false ∧ oneSprite.env.spritesEnabled = true ∧ (0 : Int) ≤ 143 ∧ (143 : Int) < 144 ∧
      ∃ t, exec (.sprline 143) oneSprite = .next t :=
  ⟨rfl, rfl, by decide, by decide, _, execSprline_run rfl 143⟩

/-- The same table with bits `[3:0]` of the attributes set. -/
theorem witness_LowAttributeBitsHaveNoEffect :
    let table : Memory SpriteEntry := ⟨.known ⟨0, 0, 0, 0x0F⟩, [(0, ⟨16, 8, 1, 0x0F⟩)]⟩
    (∀ n < 40, (table.read n).y = (oneSprite.env.sprite n).y ∧ (table.read n).x = (oneSprite.env.sprite n).x ∧
      (table.read n).tile = (oneSprite.env.sprite n).tile ∧
      (table.read n).attr.extractLsb' 4 4 = (oneSprite.env.sprite n).attr.extractLsb' 4 4) ∧
      ∃ t, exec (.sprline 0) oneSprite = .next t :=
  ⟨by decide, _, execSprline_run rfl 0⟩

theorem witness_ClearResetsOneSurface : cached.fault = false := by decide +kernel

theorem witness_ClrframeIsBothClears :
    cached.fault = false ∧ Surf.bg ≠ Surf.spr ∧ ∃ u, exec (.clear .bg) cached = .next u :=
  ⟨by decide +kernel, by decide, _, execClear_run (by decide +kernel) .bg⟩

/-- The last pixel of a surface, and another one. -/
theorem witness_WrpixStoresOnePixel :
    State.reset.fault = false ∧ (159 : Byte).toNat < 160 ∧ (143 : Byte).toNat < 144 ∧
      0 ≠ (143 : Byte).toNat * 160 + (159 : Byte).toNat := by decide

theorem witness_RdpixAnswersThePixel :
    State.reset.fault = false ∧ (159 : Byte).toNat < 160 ∧ (143 : Byte).toNat < 144 := by decide

theorem witness_APixelWrittenIsThePixelRead :
    State.reset.fault = false ∧ (159 : Byte).toNat < 160 ∧ (143 : Byte).toNat < 144 ∧ (0 : Byte).toNat < 160 ∧
      ∃ t, exec (.wrpix .spr 159 143 1) State.reset = .next t :=
  ⟨rfl, by decide, by decide, by decide, _, execWrpix_run rfl ..⟩

theorem witness_PortsLoseNothing : 3 < 4 := by decide

theorem witness_EveryStepKeepsTheInvariant :
    let s := facing (.command 0x0300020700000000) (setEnv envC State.reset)
    s.inv ∧ step s = .next cached := ⟨by decide +kernel, next_of (by decide +kernel)⟩

/-- A step that fills the cache, and a change of environment that leaves the rows alone. -/
theorem witness_StepsKeepCoherence :
    (facing (.command 0x0300020700000000) (setEnv envC State.reset)).coherent ∧
      step (facing (.command 0x0300020700000000) (setEnv envC State.reset)) = .next cached ∧
      envC.sameRows { envC with scx := 1 } :=
  ⟨coherent_of_empty fun _ => rfl, next_of (by decide +kernel), fun _ _ src => by cases src <;> rfl⟩

/-- Rows change, the notification comes, then a lookup. -/
def disciplinedStream : State := setPending [.collaborator envC, .notify, .command 0x0300020700000000] State.reset

theorem disciplinedStream_disciplined : Disciplined disciplinedStream.env false disciplinedStream.pending := by
  refine .newRows _ _ _ _ (.drop _ _ _ _ rfl (.command _ _ _ _ ?_ (fun h => by cases h) (.done _ _)))
  decide

/-- The first step of that stream changes rows. -/
theorem witness_StepsKeepCoherence_discipline :
    (∃ dirty, disciplinedStream.disciplined dirty) ∧ ∃ t, step disciplinedStream = .next t :=
  ⟨⟨false, disciplinedStream_disciplined, fun _ _ => coherent_of_empty fun _ => rfl⟩, _, step_collaborator rfl⟩

theorem witness_DisciplinedStreamsNeverUseStaleRows :
    disciplinedStream.coherent ∧ Disciplined disciplinedStream.env false disciplinedStream.pending ∧
      ∃ t, Host.Core.run Sys2Proof.core 2 disciplinedStream = .next t ∧ t.fault = false ∧
        ∃ e rest, t.pending = e :: rest ∧ e.callsGetRow = true := by
  refine ⟨coherent_of_empty fun _ => rfl, disciplinedStream_disciplined, ?_⟩
  · refine ⟨respond 0 (invalidate (setEnv envC (setPending [.command 0x0300020700000000] State.reset))), ?_, rfl,
      .command 0x0300020700000000, [], rfl, by decide⟩
    rw [run_succ (step_collaborator rfl), run_succ (u := respond 0 (invalidate (setEnv envC (setPending
      [.command 0x0300020700000000] State.reset)))) (by rw [step_notify rfl]; exact execInval_run rfl)]
    rfl

theorem witness_OnlyWrpixStoresOtherColours :
    (∀ surf x y v, Instr.clrframe ≠ .wrpix surf x y v) ∧ exec .clrframe cached =
      .next (respond 0 (clearSurface .spr (clearSurface .bg cached))) :=
  ⟨fun _ _ _ _ => by simp, execClrframe_run (by decide +kernel)⟩

theorem witness_AGoodEndMeansAGoodRun :
    (∀ e ∈ (facing .notify cached).pending, e ≠ .reset) ∧
      (∃ t, Host.Core.run Sys2Proof.core 1 (facing .notify cached) = .next t ∧ t.good) := by
  have hf : (setPending [] (facing .notify cached)).fault = false := by decide +kernel
  refine ⟨by simp [facing, setPending], _, run_succ (u := respond 0 (invalidate (setPending [] (facing .notify cached))))
    (by rw [step_notify rfl]; exact execInval_run hf) 0, ?_⟩
  exact hf

/-- A good start whose port shows no fault, and a run of it that goes wrong. -/
theorem witness_AGoodEndMeansAGoodRun_goneWrong :
    let s := facing (.command 0) State.reset
    (∀ e ∈ s.pending, e ≠ .reset) ∧ s.good ∧ s.noFaultShown ∧
      Host.Core.run Sys2Proof.core 1 s = .next (raiseFault .illegalCommand (setPending [] s)) :=
  ⟨by simp [facing, setPending], rfl, fun r h => by simp [facing, State.reset] at h,
    run_succ (u := raiseFault .illegalCommand State.reset) (next_of (by decide +kernel)) 0⟩

end Sys2Proof.Tests
end

/-! PROOFS. Every shade is opaque, the four are distinct, and they run from lightest to darkest (O22). -/
section
namespace Sys2Proof.Proofs

open Sys2Proof Sys2Proof.Machine

/-! ### The two parts of a shade -/

@[simp] theorem shade_alpha (i : U2) : (shade i).extractLsb' 0 8 = 0xFF := by
  rw [shade_eq_append]; exact BitVec.extractLsb'_append_eq_right

@[simp] theorem shade_rgb (i : U2) : (shade i).extractLsb' 8 24 = shadeRgb i := by
  rw [shade_eq_append]; exact BitVec.extractLsb'_append_eq_left

/-- A channel of a shade is read at the same place of its colour, past the eight alpha bits. -/
theorem shade_channel (i : U2) (start : Nat) :
    (shade i).extractLsb' (8 + start) 8 = (shadeRgb i).extractLsb' start 8 := by
  rw [shade_eq_append, BitVec.extractLsb'_append_eq_of_le (by omega), Nat.add_sub_cancel_left]

/-! ### What the shade table guarantees -/

theorem shadeRgb_injective : Function.Injective shadeRgb := fun i j h =>
  BitVec.toFin_inj.mp (Config.shadeTable.distinct i.toFin j.toFin h)

theorem shade_injective : Function.Injective shade := fun i j h =>
  shadeRgb_injective (by rw [← shade_rgb, ← shade_rgb, h])

/-- "index 0 lightest, index 3 darkest" (R30). -/
theorem lightness_shadeRgb_lt {i j : U2} (h : i < j) :
    Config.shadeTable.lightness (shadeRgb j) < Config.shadeTable.lightness (shadeRgb i) :=
  Config.shadeTable.ordered i.toFin j.toFin h

/-- The contrapositive of `ShadeTable.monotone` (assumption 4). -/
theorem exists_channel_lt_of_lightness_lt (table : Config.ShadeTable) {c c' : BitVec 24}
    (h : table.lightness c < table.lightness c') :
    c.extractLsb' 16 8 < c'.extractLsb' 16 8 ∨ c.extractLsb' 8 8 < c'.extractLsb' 8 8 ∨
      c.extractLsb' 0 8 < c'.extractLsb' 0 8 := by
  by_contra hnone
  simp only [not_or, BitVec.not_lt] at hnone
  have hle : table.lightness c' ≤ table.lightness c :=
    table.monotone c' c (decide_eq_true hnone)
  omega

/-- Settles O22: alpha and colour are the two parts of the concatenation a shade is, distinctness and the order are the shade
table's, and a darker colour has less of some channel because the measure of lightness is monotone. -/
theorem shadesAreOpaqueDistinctAndOrdered : Obligations.ShadesAreOpaqueDistinctAndOrdered := by
  intro i j
  refine ⟨shade_alpha i, shade_rgb i, shade_ne_zero i, fun h => shade_injective h, fun hij => ?_⟩
  have hdarker := lightness_shadeRgb_lt hij
  have hchannel := exists_channel_lt_of_lightness_lt _ hdarker
  simp only [← shade_channel] at hchannel
  rw [shade_rgb, shade_rgb]
  exact ⟨hdarker, hchannel⟩

end Sys2Proof.Proofs
end

/-! PROOFS. What a step does to the cache, the environment and the latch, and what every step therefore keeps: the invariant,
coherence and the collaborator's discipline (O7, O8, O26, O32, O54, O55, O56). -/
section
namespace Sys2Proof.Proofs

open Sys2Proof Sys2Proof.Machine

/-! ### The collaborator, the idle block, and reset -/

/-- Settles O7: `step_collaborator` and `step_idle` are the two steps. -/
theorem collaboratorAndIdleSteps : Obligations.CollaboratorAndIdleSteps :=
  ⟨fun _ _ _ hp => step_collaborator hp, fun _ hp => step_idle hp⟩

/-- Settles O8: `step_reset` names the next state, and `resetBlock` sets each field of it. -/
theorem resetGivesTheResetState : Obligations.ResetGivesTheResetState := by
  intro s rest hp
  refine ⟨_, step_reset hp, ?_⟩
  simp

theorem env_initial_wf : Env.initial.wf := by decide

theorem reset_arraysWf : State.reset.arraysWf :=
  ⟨wf_drawn _ .bgs 0, wf_drawn _ .sps 0, wf_drawn _ .raw 0, wf_drawn _ .claim 0, wf_filled _ none, rfl⟩

theorem reset_latchWf : State.reset.latchWf := ⟨by simp [State.reset], by simp [State.reset], rfl⟩

/-- Settles O54: the arrays are just drawn, the cache is empty, the latch and the response port are clear. -/
theorem resetMeetsTheInvariant : Obligations.ResetMeetsTheInvariant :=
  ⟨⟨reset_arraysWf, reset_latchWf, env_initial_wf, by simp [State.reset]⟩, coherent_of_empty fun _ => rfl⟩

/-! ### Cache keys in the words of the rules -/

theorem cacheKey_eq_keyIndex (t : Byte) (r : U3) (src : Src) : cacheKey t r src = Spec.keyIndex t r src := by
  cases src <;> simp [cacheKey, Spec.keyIndex, Src.bit]

theorem rowOf_eq_rowBytes (env : Env) (t : Byte) (r : U3) (src : Src) : env.rowOf t r src = Spec.rowBytes env t r src := by
  cases src <;> rfl

/-- Settles O26: the bound, injectivity and surjectivity are the laws of `cacheKey`. -/
theorem cacheKeysFillTheCache : Obligations.CacheKeysFillTheCache :=
  ⟨fun t _ r _ src _ => ⟨cacheKey_eq_keyIndex t r src, cacheKey_lt t r src, cacheKey_inj.mp⟩,
    fun _ hk => exists_cacheKey hk⟩

/-! ### What a step does to the environment and to the cache -/

/-- Only a collaborator item changes the environment (R38, R57). -/
theorem step_env_cases {s t : State} (h : step s = .next t) :
    t.env = s.env ∨ ∃ rest, s.pending = .collaborator t.env :: rest := by
  cases step_next h with
  | idle => exact .inl rfl
  | refused => exact .inl rfl
  | ran w i rest t _ _ _ hE => exact .inl (effect_outside hE).1
  | illegal => exact .inl rfl
  | notified => exact .inl rfl
  | collaborator env rest hp => exact .inr ⟨rest, hp⟩
  | reset => exact .inl rfl

/-- A step fills misses or drops the whole cache (R130, R134, R240). -/
theorem step_cache_cases {s t : State} (h : step s = .next t) : cacheGrows s t ∨ ∀ k, t.rc.read k = none := by
  cases step_next h with
  | idle => exact .inl (cacheGrows_refl s)
  | refused => exact .inl (cacheGrows_refl s)
  | ran w i rest t _ _ _ hE =>
    rcases effect_cache hE with hgrows | ⟨-, rfl⟩
    · exact .inl hgrows
    · exact .inr fun _ => rfl
  | illegal => exact .inl (cacheGrows_refl s)
  | notified => exact .inr fun _ => rfl
  | collaborator => exact .inl (cacheGrows_refl s)
  | reset => exact .inr fun _ => rfl

/-- Settles O32: a step that does not drop the cache only fills misses, each with the row its accessor gives. -/
theorem newEntriesHoldTheRowReadNow : Obligations.NewEntriesHoldTheRowReadNow := by
  intro s t tile r src row h hs ht
  rw [← cacheKey_eq_keyIndex] at hs ht
  rw [← rowOf_eq_rowBytes]
  rcases step_cache_cases h with ⟨-, -, hnew⟩ | hempty
  · obtain ⟨tile', r', src', hkey, hrow⟩ := hnew _ row hs ht
    obtain ⟨rfl, rfl, rfl⟩ := cacheKey_inj.mp hkey
    exact hrow
  · rw [hempty] at ht
    cases ht

/-! ### The invariant -/

theorem step_arraysWf {s t : State} (h : step s = .next t) (hw : s.arraysWf) : t.arraysWf := by
  cases step_next h with
  | idle => exact hw
  | refused => exact hw
  | ran w i rest t _ _ _ hE => exact effect_arraysWf hE hw
  | illegal => exact hw
  | notified =>
    obtain ⟨hbgs, hsps, hraw, hclaim, -, -⟩ := hw
    exact ⟨hbgs, hsps, hraw, hclaim, wf_filled _ _, rfl⟩
  | collaborator => exact hw
  | reset => exact ⟨wf_drawn .., wf_drawn .., wf_drawn .., wf_drawn .., wf_filled _ _, rfl⟩

/-- A response that shows the latch keeps `latchWf`, if the latch itself stays. -/
theorem latchWf_of_response {s t : State} {r : RespWord} (hl : s.latchWf) (hfault : t.fault = s.fault)
    (hfcode : t.fcode = s.fcode) (hresp : t.resp = some r) (hr : respFault r = s.fault) : t.latchWf := by
  obtain ⟨hiff, hkey, -⟩ := hl
  refine ⟨by rw [hfault, hfcode]; exact hiff, by rw [hfcode]; exact hkey, ?_⟩
  simp [hresp, hr, hfault]

/-- Raising a fault sets the latch with a code that means one. -/
theorem raiseFault_latchWf {code : FaultCode} (h0 : code ≠ .noFault) (hkey : code ≠ .key) (s : State) :
    (raiseFault code s).latchWf := by
  refine ⟨by simp [h0], hkey, ?_⟩
  simp

theorem step_latchWf {s t : State} (h : step s = .next t) (hl : s.latchWf) : t.latchWf := by
  cases step_next h with
  | idle => exact hl
  | refused e rest _ _ hf => exact latchWf_of_response hl rfl rfl rfl ((respFault_fault _).trans hf.symm)
  | ran w i rest t _ _ hf hE =>
    rcases effect_latch hE with ⟨hfault, hfcode, d, hresp⟩ | ⟨rfl, -⟩
    · exact latchWf_of_response hl hfault hfcode hresp ((respFault_ok d).trans hf.symm)
    · exact raiseFault_latchWf (by decide) (by decide) _
  | illegal => exact raiseFault_latchWf (by decide) (by decide) _
  | notified rest _ hf => exact latchWf_of_response hl rfl rfl rfl ((respFault_ok _).trans hf.symm)
  | collaborator => exact hl
  | reset => exact ⟨by simp, by simp, rfl⟩

/-- The environment a step ends with is the old one or came well-formed in the stream. -/
theorem step_env_wf {s t : State} (h : step s = .next t) (henv : s.env.wf) (hevents : ∀ e ∈ s.pending, e.wf = true) :
    t.env.wf := by
  rcases step_env_cases h with heq | ⟨rest, hp⟩
  · rw [heq]
    exact henv
  · have hitem := hevents (.collaborator t.env) (by rw [hp]; exact List.mem_cons_self)
    exact of_decide_eq_true hitem

/-- Settles O55: the arrays, the latch with its response, the environment and the rest of the stream are kept each on its own. -/
theorem everyStepKeepsTheInvariant : Obligations.EveryStepKeepsTheInvariant := by
  intro s t hinv h
  obtain ⟨harrays, hlatch, henv, hevents⟩ := hinv
  refine ⟨step_arraysWf h harrays, step_latchWf h hlatch, step_env_wf h henv hevents, fun e he => ?_⟩
  rw [step_pending h] at he
  exact hevents e (List.mem_of_mem_tail he)

/-! ### Coherence and the discipline of pattern changes -/

theorem sameRows_refl (env : Env) : env.sameRows env := fun _ _ _ => rfl

/-- Filling misses keeps coherence also when the environment is replaced by one with the same pattern rows (R64). -/
theorem cacheGrows_coherent_of_sameRows {s t : State} (hgrows : cacheGrows s t) (hrows : s.env.sameRows t.env)
    (hc : s.coherent) : t.coherent := by
  intro tile r src row hrow
  rw [hrows]
  exact cacheGrows_coherent (t := { t with env := s.env }) hgrows rfl hc tile r src row hrow

/-- A step that changes no pattern row keeps coherence (R40 item 1). -/
theorem step_coherent {s t : State} (h : step s = .next t) (hrows : s.env.sameRows t.env) (hc : s.coherent) :
    t.coherent := by
  rcases step_cache_cases h with hgrows | hempty
  · exact cacheGrows_coherent_of_sameRows hgrows hrows hc
  · exact coherent_of_empty hempty

theorem exec_inval_empties {s t : State} (h : exec .inval s = .next t) (hf : t.fault = false) (k : Nat) :
    t.rc.read k = none := by
  cases hs : s.fault with
  | true =>
    rw [exec_refused hs] at h
    cases h
    rw [refuse_fault, hs] at hf
    cases hf
  | false =>
    rw [execInval_run hs] at h
    cases h
    rfl

/-- An item that drops the cache leaves it empty, unless it is refused (R134, R136, R240). -/
theorem step_dropsCache_empties {s t : State} {e : Event} {rest : List Event} (h : step s = .next t)
    (hp : s.pending = e :: rest) (hdrops : e.dropsCache = true) (hf : t.fault = false) (k : Nat) :
    t.rc.read k = none := by
  cases e with
  | command w =>
    have hw : decode w = .ok .inval := of_decide_eq_true hdrops
    rw [step_command hp, runWord_ok hw] at h
    exact exec_inval_empties h hf k
  | notify =>
    rw [step_notify hp] at h
    exact exec_inval_empties h hf k
  | collaborator env => cases hdrops
  | reset =>
    rw [step_reset hp] at h
    cases h
    rfl

/-- An item that is no collaborator item leaves the environment alone. -/
theorem step_env_of_ne_collaborator {s t : State} {e : Event} {rest : List Event} (h : step s = .next t)
    (hp : s.pending = e :: rest) (hne : ∀ env, e ≠ .collaborator env) : t.env = s.env := by
  rcases step_env_cases h with heq | ⟨rest', hp'⟩
  · exact heq
  · rw [hp] at hp'
    cases hp'
    exact absurd rfl (hne _)

/-- A step on a command word that ends with `FAULT = 0` began with `FAULT = 0` (R224). -/
theorem fault_false_of_step_command {s t : State} {w : CmdWord} {rest : List Event} (h : step s = .next t)
    (hp : s.pending = .command w :: rest) (hf : t.fault = false) : s.fault = false := by
  have hkeeps := (step_latch h (by simp [hp])).1
  cases hs : s.fault with
  | false => rfl
  | true =>
    rw [hkeeps hs] at hf
    cases hf

/-- One step along a disciplined stream, by what the discipline says of its first item. -/
theorem step_disciplined {s t : State} {dirty : Bool} (h : step s = .next t) (hs : s.disciplined dirty) :
    ∃ dirty', t.disciplined dirty' := by
  obtain ⟨hstream, hcoherent⟩ := hs
  have hpending := step_pending h
  generalize henv : s.env = env at hstream
  generalize hp : s.pending = events at hstream
  rw [hp] at hpending
  cases hstream with
  | done =>
    rw [step_idle hp] at h
    cases h
    exact ⟨dirty, by rw [hp]; exact .done .., hcoherent⟩
  | drop _ _ e rest hdrops hrest =>
    have hsame : t.env = s.env := step_env_of_ne_collaborator h hp (by rintro env' rfl; cases hdrops)
    refine ⟨false, by rw [hsame, henv, hpending]; exact hrest, fun hf _ => ?_⟩
    exact coherent_of_empty (step_dropsCache_empties h hp hdrops hf)
  | sameRows _ env' _ rest hrows hrest =>
    rw [step_collaborator hp] at h
    cases h
    refine ⟨dirty, hrest, fun hf hd => ?_⟩
    exact cacheGrows_coherent_of_sameRows (s := s) (cacheGrows_refl s) (henv ▸ hrows) (hcoherent hf hd)
  | newRows _ env' _ rest hrest =>
    rw [step_collaborator hp] at h
    cases h
    exact ⟨true, hrest, fun _ hd => Bool.noConfusion hd⟩
  | command _ _ w rest _ _ hrest =>
    have hsame : t.env = s.env := step_env_of_ne_collaborator h hp (by simp)
    refine ⟨dirty, by rw [hsame, henv, hpending]; exact hrest, fun hf hd => ?_⟩
    exact step_coherent h (hsame ▸ sameRows_refl _) (hcoherent (fault_false_of_step_command h hp hf) hd)

/-- Settles O56: a step fills misses with the rows of now or drops the cache, so it keeps coherence unless it changes a pattern
row; the discipline is kept by what it says of the item the step takes. -/
theorem stepsKeepCoherence : Obligations.StepsKeepCoherence := by
  refine ⟨fun s t hc h hrows => ?_, fun s t ⟨_, hs⟩ h => step_disciplined h hs⟩
  refine step_coherent h ?_ hc
  rcases step_env_cases h with heq | ⟨rest, hp⟩
  · rw [heq]
    exact sameRows_refl _
  · exact hrows _ rest hp

end Sys2Proof.Proofs
end

/-! PROOFS. The sprite pass in the words of R185, with any cache and with a coherent one (O44), and the colours an operation can
store (O58). -/
section
namespace Sys2Proof.Proofs

open Sys2Proof Sys2Proof.Machine

/-! ### Rows and columns of a sprite -/

theorem rowFor_eq_rowGiven (s : State) (t : Byte) (r : U3) (src : Src) :
    rowFor s.rc s.env t r src = Spec.rowGiven s t r src := by
  simp only [rowFor, Spec.rowGiven, cacheKey_eq_keyIndex, rowOf_eq_rowBytes]

/-- In a coherent state `GetRow` gives the decoded bytes of now (R139). -/
theorem rowGiven_of_coherent {s : State} (hc : s.coherent) (t : Byte) (r : U3) (src : Src) :
    Spec.rowGiven s t r src = decodeRow (Spec.rowBytes s.env t r src).lo (Spec.rowBytes s.env t r src).hi := by
  rw [← rowFor_eq_rowGiven, rowFor_coherent hc, rowOf_eq_rowBytes]

/-- A pixel of a decoded row is the two plane bits of its column (R16, R110). -/
theorem rowPixel_decodeRow_toNat (b : BytePair) (c : U3) :
    (rowPixel (decodeRow b.lo b.hi) c).toNat = Spec.planeBits b (7 - c.toNat) := by
  rw [rowPixel_decodeRow, Spec.planeBits]
  cases b.hi.getLsbD (7 - c.toNat) <;> cases b.lo.getLsbD (7 - c.toNat) <;> rfl

/-- A flip is the same taken before or after the coordinate gets its three bits. -/
theorem ofNat_seven_sub {c : Nat} (hc : c < 8) : BitVec.ofNat 3 (7 - c) = 7 - BitVec.ofNat 3 c := by
  apply BitVec.eq_of_toNat_eq
  simp only [BitVec.toNat_ofNat, BitVec.toNat_sub, show (7 : U3).toNat = 7 from rfl]
  omega

theorem spriteOnLine_iff (line : Nat) (e : SpriteEntry) :
    spriteOnLine line e = true ↔ (e.y.toNat : Int) - 16 ≤ line ∧ (line : Int) < e.y.toNat - 8 := by
  rw [spriteOnLine, decide_eq_true_eq, spriteTop]
  omega

theorem spriteOn_iff (e : SpriteEntry) (line x : Nat) :
    Spec.spriteOn e line x ↔ spriteOnLine line e = true ∧ spriteCovers e 8 x := by
  rw [spriteOnLine_iff, Spec.spriteOn, spriteCovers]
  omega

theorem spriteRow_eq {line : Nat} {e : SpriteEntry} (hon : spriteOnLine line e = true) :
    Spec.spriteRow e line = spriteRowInTile line e := by
  rw [spriteOnLine_iff] at hon
  have hlt : ((line : Int) - ((e.y.toNat : Int) - 16)).toNat < 8 := by omega
  rw [Spec.spriteRow, spriteRowInTile, SpriteEntry.vFlip, spriteTop]
  split
  · exact ofNat_seven_sub hlt
  · rfl

theorem spriteTileColumn_eq (e : SpriteEntry) (x : Nat) :
    Spec.spriteTileColumn e x = if e.hFlip then 7 - spriteColAt e x else spriteColAt e x := by
  have hcol : ((x : Int) - ((e.x.toNat : Int) - 8)).toNat = spriteColAt e x := by
    unfold spriteColAt
    omega
  rw [Spec.spriteTileColumn, hcol]
  rfl

theorem spriteColAt_lt {e : SpriteEntry} {x : Nat} (hcov : spriteCovers e 8 x) : spriteColAt e x < 8 := by
  unfold spriteCovers at hcov
  unfold spriteColAt
  omega

theorem spriteTileColumn_lt {e : SpriteEntry} {x : Nat} (hcov : spriteCovers e 8 x) : Spec.spriteTileColumn e x < 8 := by
  have hlt := spriteColAt_lt hcov
  rw [spriteTileColumn_eq]
  split <;> omega

/-! ### Which entry draws -/

/-- The raw intensity the pass uses is that of the row `GetRow` gives, flips applied (R175, R176, R178). -/
theorem spriteRawAt_eq_given {line x : Nat} (s : State) {e : SpriteEntry} (hon : spriteOnLine line e = true)
    (hcov : spriteCovers e 8 x) :
    spriteRawAt line s e (BitVec.ofNat 3 (spriteColAt e x)) = Spec.spriteRawGiven s e line x := by
  rw [spriteRawAt, Spec.spriteRawGiven, rowFor_eq_rowGiven, spriteRow_eq hon, spriteTileColumn_eq]
  split
  · rw [ofNat_seven_sub (spriteColAt_lt hcov)]
  · rfl

/-- The pass draws an entry exactly where R185 says so of the rows `GetRow` gives. -/
theorem spriteDraws_iff_given (s : State) (line x n : Nat) :
    Machine.spriteDraws line s n x ↔ Spec.spriteDrawsGiven s line x n := by
  rw [Machine.spriteDraws, Spec.spriteDrawsGiven, Spec.spriteShows, spriteOn_iff, and_assoc]
  refine and_congr_right fun hon => and_congr_right fun hcov => ?_
  rw [spriteWins, decide_eq_true_eq, spriteRawAt_eq_given s hon hcov, pixAddr_eq, Nat.add_comm,
    ← BitVec.toNat_ne_iff_ne]
  rfl

/-- With a coherent cache the row `GetRow` gives is the pair of plane bytes of now (R64, R185). -/
theorem spriteRawGiven_of_coherent {s : State} (hc : s.coherent) {e : SpriteEntry} {line x : Nat}
    (hcov : spriteCovers e 8 x) : (Spec.spriteRawGiven s e line x).toNat = Spec.spriteRaw s.env e line x := by
  have hlt := spriteTileColumn_lt hcov
  rw [Spec.spriteRawGiven, rowGiven_of_coherent hc, rowPixel_decodeRow_toNat, Spec.spriteRaw, BitVec.toNat_ofNat,
    Nat.mod_eq_of_lt hlt]
  rfl

theorem spriteDrawsGiven_iff_of_coherent {s : State} (hc : s.coherent) (line x n : Nat) :
    Spec.spriteDrawsGiven s line x n ↔ Spec.spriteDraws s line x n := by
  refine and_congr_right fun hon => ?_
  rw [spriteRawGiven_of_coherent hc ((spriteOn_iff _ _ _).mp hon).2]

/-- The operation's next state is the pass, answered. -/
theorem exec_sprline_visible {s t : State} {line : Int} (hf : s.fault = false) (h0 : 0 ≤ line) (h1 : line < 144)
    (hen : s.env.spritesEnabled = true) (h : exec (.sprline line) s = .next t) :
    ∃ u, renderSprites line.toNat s = u ∧ t = respond 0 u ∧ PassDone line.toNat s 40 u := by
  obtain ⟨u, hu, hexec, hdone⟩ := sprline_visible hf h0 h1 hen
  rw [hexec] at h
  cases h
  exact ⟨u, hu, rfl, hdone⟩

/-- Settles O44: the pass claims a column exactly where an entry draws (`PassDone.claim`), which with a coherent cache is R185's
`draws(n)`. -/
theorem claimsAreThisPassesWrites : Obligations.ClaimsAreThisPassesWrites := by
  intro line s t hf hc h0 h1 hen h x hx
  obtain ⟨u, -, rfl, hdone⟩ := exec_sprline_visible hf h0 h1 hen h
  rw [respond_claim, hdone.claim x hx]
  simp only [spriteDraws_iff_given, spriteDrawsGiven_iff_of_coherent hc]

/-! ### The colours an operation can store -/

/-- `BGLINE` leaves a pixel of `BGS` alone or makes it a shade (R158). -/
theorem bgDone_bgs_cases {line n : Nat} {s t : State} (h : BgDone line s n t) (a : Nat) :
    t.bgs.read a = s.bgs.read a ∨ ∃ i, t.bgs.read a = shade i := by
  by_cases ha : ∃ x < n, a = pixAddr x line
  · obtain ⟨x, hx, rfl⟩ := ha
    exact .inr ⟨_, h.bgs x hx⟩
  · exact .inl (h.bgsElse a fun x hx heq => ha ⟨x, hx, heq⟩)

/-- A pass leaves a pixel of `SPS` alone or makes it a shade, that of the least entry that draws there (R179, R181). -/
theorem passDone_sps_cases {line n : Nat} {s t : State} (h : PassDone line s n t) (a : Nat) :
    t.sps.read a = s.sps.read a ∨ ∃ i, t.sps.read a = shade i := by
  classical
  by_cases ha : ∃ x < 160, a = pixAddr x line
  · obtain ⟨x, hx, rfl⟩ := ha
    by_cases hdraws : ∃ m, m < n ∧ Machine.spriteDraws line s m x
    · obtain ⟨hm, hdraw⟩ := Nat.find_spec hdraws
      refine .inr ⟨_, h.drawn x hx _ hm hdraw fun k hk hk' => ?_⟩
      exact Nat.find_min hdraws hk ⟨hk.trans hm, hk'⟩
    · exact .inl (h.kept x hx fun m hm hm' => hdraws ⟨m, hm, hm'⟩)
  · exact .inl (h.else_ a fun x hx heq => ha ⟨x, hx, heq⟩)

/-- A row clear leaves a pixel of `SPS` alone or makes it transparent (R172). -/
theorem rowCleared_sps_cases {line n : Nat} {s t : State} (h : RowCleared line s n t) (a : Nat) :
    t.sps.read a = s.sps.read a ∨ t.sps.read a = 0 := by
  by_cases ha : ∃ x < n, a = pixAddr x line
  · obtain ⟨x, hx, rfl⟩ := ha
    exact .inr (h.cleared x hx)
  · exact .inl (h.else_ a fun x hx heq => ha ⟨x, hx, heq⟩)

theorem isPictureColour_zero : isPictureColour 0 := .inl rfl

/-- Every pixel of the surface `m'` is that of `m`, or 0, or a shade (R40 item 5). -/
def onlyPictureColours (m m' : Memory Rgba) : Prop := ∀ a, m'.read a = m.read a ∨ isPictureColour (m'.read a)

theorem onlyPictureColours_refl (m : Memory Rgba) : onlyPictureColours m m := fun _ => .inl rfl

theorem onlyPictureColours_of_eq {m m' : Memory Rgba} (h : m' = m) : onlyPictureColours m m' :=
  h ▸ onlyPictureColours_refl m

theorem onlyPictureColours_filled (m : Memory Rgba) : onlyPictureColours m (Memory.filled 0) :=
  fun _ => .inr isPictureColour_zero

/-- Every effect but that of `WRPIX` stores shades and the transparent pixel only. -/
theorem effect_onlyPictureColours {i : Instr} {s t : State} (h : Effect i s t)
    (hi : ∀ surf x y v, i ≠ .wrpix surf x y v) :
    onlyPictureColours s.bgs t.bgs ∧ onlyPictureColours s.sps t.sps := by
  cases h with
  | answer => exact ⟨onlyPictureColours_refl _, onlyPictureColours_refl _⟩
  | cached => exact ⟨onlyPictureColours_of_eq (getRow_bgs ..), onlyPictureColours_of_eq (getRow_sps ..)⟩
  | dropped => exact ⟨onlyPictureColours_refl _, onlyPictureColours_refl _⟩
  | bg line u _ _ hu =>
    have hdone : BgDone line s 160 u := hu ▸ renderBgLine_done line s
    have hsps : u.sps = s.sps := by rw [← hu, renderBgLine_sps]
    exact ⟨fun a => (bgDone_bgs_cases hdone a).imp_right .inr, onlyPictureColours_of_eq hsps⟩
  | spr line u _ _ _ hu =>
    have hdone : PassDone line s 40 u := hu ▸ renderSprites_done line s
    have hbgs : u.bgs = s.bgs := by rw [← hu, renderSprites_bgs]
    exact ⟨onlyPictureColours_of_eq hbgs, fun a => (passDone_sps_cases hdone a).imp_right .inr⟩
  | sprOff line u _ _ _ hu =>
    have hdone : RowCleared line s 160 u := hu ▸ clearSpriteRow_done line s
    have hbgs : u.bgs = s.bgs := by rw [← hu, clearSpriteRow_bgs]
    exact ⟨onlyPictureColours_of_eq hbgs, fun a => (rowCleared_sps_cases hdone a).imp_right .inl⟩
  | clear surf =>
    cases surf
    · exact ⟨onlyPictureColours_filled _, onlyPictureColours_refl _⟩
    · exact ⟨onlyPictureColours_refl _, onlyPictureColours_filled _⟩
  | clrframe => exact ⟨onlyPictureColours_filled _, onlyPictureColours_filled _⟩
  | wrpix surf x y v hw => exact absurd hw (hi surf x y v)
  | extent => exact ⟨onlyPictureColours_refl _, onlyPictureColours_refl _⟩

/-- Settles O58: a refusal stores nothing, and every effect but that of `WRPIX` stores picture colours only. -/
theorem onlyWrpixStoresOtherColours : Obligations.OnlyWrpixStoresOtherColours := by
  intro i s t hi h a
  rcases exec_next h with ⟨-, rfl⟩ | ⟨-, heffect⟩
  · exact ⟨.inl rfl, .inl rfl⟩
  · obtain ⟨hbgs, hsps⟩ := effect_onlyPictureColours heffect hi
    exact ⟨hbgs a, hsps a⟩

end Sys2Proof.Proofs
end

/-! PROOFS. Two sprite passes run side by side: over other surfaces and claims (O46), and over a sprite table that differs only in
bits `[3:0]` of its `attr` bytes (O47). -/
section
namespace Sys2Proof.Proofs

open Sys2Proof Sys2Proof.Machine

/-- `GetRow` commutes with a change of the state that leaves the cache and the pattern rows alone. -/
theorem getRow_comm {f : State → State} {s : State} (t : Byte) (r : U3) (src : Src) (hrc : (f s).rc = s.rc)
    (hrows : (f s).env.rowOf t r src = s.env.rowOf t r src)
    (hfill : ∀ k row, fillCache k row (f s) = f (fillCache k row s)) :
    getRow t r src (f s) = ((getRow t r src s).1, f (getRow t r src s).2) := by
  cases h : s.rc.read (cacheKey t r src) with
  | some row => rw [getRow_hit h, getRow_hit (hrc ▸ h)]
  | none => rw [getRow_miss h, getRow_miss (hrc ▸ h), hrows, hfill]

/-- A column reads nothing of the state but `CLAIM` and `RAW` (R179, R180): where these agree, both sides decide alike. -/
theorem spritePixel_rel {R : State → State → Prop} {a b : State} (p : SpritePass) (e : SpriteEntry) (row : Row) (c : Nat)
    (h : R a b) (hclaim : b.claim = a.claim) (hraw : b.raw = a.raw)
    (hdraw : ∀ x y v, R (claimColumn x (writePixel .spr x y v a)) (claimColumn x (writePixel .spr x y v b))) :
    R (spritePixel p e row a c) (spritePixel p e row b c) := by
  simp only [spritePixel, hclaim, hraw]
  split
  · exact h
  · split
    · exact h
    · split
      · exact h
      · split
        · exact h
        · exact hdraw ..

/-! ### Other surfaces -/

/-- The state with other surfaces. -/
def withSurfaces (bgs sps : Memory Rgba) (s : State) : State := { s with bgs := bgs, sps := sps }

@[simp] theorem withSurfaces_sps (bgs sps : Memory Rgba) (s : State) : (withSurfaces bgs sps s).sps = sps := rfl
@[simp] theorem withSurfaces_raw (bgs sps : Memory Rgba) (s : State) : (withSurfaces bgs sps s).raw = s.raw := rfl
@[simp] theorem withSurfaces_claim (bgs sps : Memory Rgba) (s : State) : (withSurfaces bgs sps s).claim = s.claim := rfl
@[simp] theorem withSurfaces_env (bgs sps : Memory Rgba) (s : State) : (withSurfaces bgs sps s).env = s.env := rfl

theorem getRow_withSurfaces (bgs sps : Memory Rgba) (t : Byte) (r : U3) (src : Src) (s : State) :
    getRow t r src (withSurfaces bgs sps s) =
      ((getRow t r src s).1, withSurfaces bgs sps (getRow t r src s).2) :=
  getRow_comm (f := withSurfaces bgs sps) t r src rfl rfl fun _ _ => rfl

/-- Two states of two passes, `b` over the background `bgs`: they agree but for the surfaces, and a pixel of `SPS` has in both the
value both passes gave it, or in each the value its pass found (`old` and `new`). -/
structure SamePass (bgs old new : Memory Rgba) (a b : State) : Prop where
  frame : b = withSurfaces bgs b.sps a
  pixels : ∀ k, b.sps.read k = a.sps.read k ∨ b.sps.read k = new.read k ∧ a.sps.read k = old.read k

/-- Both passes draw the pixel. -/
theorem samePass_draw {bgs old new : Memory Rgba} {a b : State} (h : SamePass bgs old new a b) (x y : Nat) (v : Rgba) :
    SamePass bgs old new (claimColumn x (writePixel .spr x y v a)) (claimColumn x (writePixel .spr x y v b)) := by
  refine ⟨?_, fun k => ?_⟩
  · obtain ⟨m, rfl⟩ : ∃ m, b = withSurfaces bgs m a := ⟨_, h.frame⟩
    rfl
  · simp only [claimColumn_sps, writePixel_spr_sps, read_write]
    split
    · exact .inl rfl
    · exact h.pixels k

theorem samePass_spritePixel {bgs old new : Memory Rgba} {a b : State} (h : SamePass bgs old new a b) (p : SpritePass)
    (e : SpriteEntry) (row : Row) (c : Nat) :
    SamePass bgs old new (spritePixel p e row a c) (spritePixel p e row b c) :=
  spritePixel_rel p e row c h (by rw [h.frame, withSurfaces_claim]) (by rw [h.frame, withSurfaces_raw]) (samePass_draw h)

theorem samePass_getRow {bgs old new : Memory Rgba} {a b : State} (h : SamePass bgs old new a b) (t : Byte) (r : U3)
    (src : Src) :
    (getRow t r src b).1 = (getRow t r src a).1 ∧ SamePass bgs old new (getRow t r src a).2 (getRow t r src b).2 := by
  have hget := getRow_withSurfaces bgs b.sps t r src a
  rw [← h.frame] at hget
  rw [hget]
  exact ⟨rfl, rfl, by simpa using h.pixels⟩

theorem samePass_spriteEntry {bgs old new : Memory Rgba} {a b : State} (h : SamePass bgs old new a b) (p : SpritePass)
    (n : Nat) : SamePass bgs old new (spriteEntry p a n) (spriteEntry p b n) := by
  have henv : b.env = a.env := by rw [h.frame, withSurfaces_env]
  simp only [spriteEntry, henv]
  split
  · obtain ⟨hrow, hsame⟩ := samePass_getRow h (a.env.sprite n).tile (spriteRowInTile p.line (a.env.sprite n)) .sprsrc
    rw [hrow]
    exact foldl_range_rel (SamePass bgs old new) _ _ hsame fun c _ _ _ hc => samePass_spritePixel hc p _ _ c
  · exact h

/-- The whole pass, from any surfaces and any claims: it clears the claims before it looks at them (R173). -/
theorem samePass_renderSprites (line : Nat) (s : State) (bgs sps : Memory Rgba) (claim : Memory Bool) :
    SamePass bgs s.sps sps (renderSprites line s)
      (renderSprites line { s with bgs := bgs, sps := sps, claim := claim }) := by
  unfold renderSprites
  refine foldl_range_rel (SamePass bgs s.sps sps) _ _ ?_ fun n _ _ _ hn => samePass_spriteEntry hn _ n
  exact ⟨rfl, fun _ => .inr ⟨rfl, rfl⟩⟩

/-- Settles O46: the two passes run side by side under `SamePass`. -/
theorem aSpritePassIgnoresTheSurfaces : Obligations.ASpritePassIgnoresTheSurfaces := by
  intro line s t bgs sps claim hf h0 h1 hen h
  obtain ⟨u, hu, rfl, -⟩ := exec_sprline_visible hf h0 h1 hen h
  obtain ⟨u', hu', hexec, -⟩ :=
    sprline_visible (s := { s with bgs := bgs, sps := sps, claim := claim }) hf h0 h1 hen
  have hsame := samePass_renderSprites line.toNat s bgs sps claim
  rw [hu, hu'] at hsame
  exact ⟨_, hexec, congrArg (respond 0) hsame.frame, hsame.pixels⟩

/-! ### Another sprite table -/

/-- The state with another sprite table. -/
def withSprites (table : Memory SpriteEntry) (s : State) : State := { s with env := { s.env with sprites := table } }

@[simp] theorem withSprites_sprite (table : Memory SpriteEntry) (s : State) (n : Nat) :
    (withSprites table s).env.sprite n = table.read n := rfl
@[simp] theorem withSprites_spritesEnabled (table : Memory SpriteEntry) (s : State) :
    (withSprites table s).env.spritesEnabled = s.env.spritesEnabled := rfl

theorem respond_withSprites (table : Memory SpriteEntry) (d : BitVec 32) (s : State) :
    respond d (withSprites table s) = withSprites table (respond d s) := rfl

theorem clearSpriteRow_withSprites (table : Memory SpriteEntry) (line : Nat) (s : State) :
    clearSpriteRow line (withSprites table s) = withSprites table (clearSpriteRow line s) := by
  simp only [clearSpriteRow, withSprites]

theorem getRow_withSprites (table : Memory SpriteEntry) (t : Byte) (r : U3) (src : Src) (s : State) :
    getRow t r src (withSprites table s) = ((getRow t r src s).1, withSprites table (getRow t r src s).2) :=
  getRow_comm (f := withSprites table) t r src rfl (by cases src <;> rfl) fun _ _ => rfl

theorem spritePixel_withSprites (table : Memory SpriteEntry) (p : SpritePass) (e : SpriteEntry) (row : Row) (s : State)
    (c : Nat) : spritePixel p e row (withSprites table s) c = withSprites table (spritePixel p e row s c) :=
  spritePixel_rel (R := fun a b => b = withSprites table a) p e row c rfl rfl rfl fun _ _ _ => rfl

/-- The two entries differ at most in bits `[3:0]` of their `attr` bytes (R35). -/
structure SameButLowBits (e' e : SpriteEntry) : Prop where
  y : e'.y = e.y
  x : e'.x = e.x
  tile : e'.tile = e.tile
  attr : e'.attr.extractLsb' 4 4 = e.attr.extractLsb' 4 4

section
variable {e' e : SpriteEntry} (h : SameButLowBits e' e)
include h

theorem attr_bit_eq {i : Nat} (hi : i < 4) : e'.attr.getLsbD (4 + i) = e.attr.getLsbD (4 + i) := by
  have hbit := congrArg (BitVec.getLsbD · i) h.attr
  simpa [BitVec.getLsbD_extractLsb', hi] using hbit

theorem palSel_eq : e'.palSel = e.palSel := attr_bit_eq h (i := 0) (by decide)
theorem hFlip_eq : e'.hFlip = e.hFlip := attr_bit_eq h (i := 1) (by decide)
theorem vFlip_eq : e'.vFlip = e.vFlip := attr_bit_eq h (i := 2) (by decide)
theorem bgPri_eq : e'.bgPri = e.bgPri := attr_bit_eq h (i := 3) (by decide)

theorem spriteTop_eq : spriteTop e' = spriteTop e := by rw [spriteTop, h.y, spriteTop]

theorem spriteOnLine_eq (line : Nat) : spriteOnLine line e' = spriteOnLine line e := by
  rw [spriteOnLine, spriteTop_eq h, spriteOnLine]

theorem spriteRowInTile_eq (line : Nat) : spriteRowInTile line e' = spriteRowInTile line e := by
  rw [spriteRowInTile, spriteTop_eq h, vFlip_eq h, spriteRowInTile]

theorem spriteColumn_eq (c : Nat) : spriteColumn e' c = spriteColumn e c := by rw [spriteColumn, h.x, spriteColumn]

theorem spritePixel_eq_of_sameButLowBits (p : SpritePass) (row : Row) : spritePixel p e' row = spritePixel p e row := by
  funext s c
  simp only [spritePixel, spriteColumn_eq h, bgPri_eq h, palSel_eq h]

end

@[simp] theorem spriteEntry_env (p : SpritePass) (s : State) (n : Nat) : (spriteEntry p s n).env = s.env := by
  simp only [spriteEntry]
  split
  · exact foldl_range_keeps (fun u : State => u.env = s.env) _ (getRow_env ..) fun c u _ hu => by
      rw [spritePixel_env, hu]
  · rfl

/-- One entry of the pass, where the other table has it with other low bits. -/
theorem spriteEntry_withSprites {table : Memory SpriteEntry} {s : State} {n : Nat}
    (h : SameButLowBits (table.read n) (s.env.sprite n)) (p : SpritePass) :
    spriteEntry p (withSprites table s) n = withSprites table (spriteEntry p s n) := by
  simp only [spriteEntry, withSprites_sprite, spriteOnLine_eq h, spriteRowInTile_eq h, h.tile, hFlip_eq h,
    spritePixel_eq_of_sameButLowBits h, getRow_withSprites]
  split
  · exact foldl_range_rel (fun a b => b = withSprites table a) _ _ rfl fun c a _ _ hab => by
      rw [hab, spritePixel_withSprites]
  · rfl

/-- The whole pass under a table that has every entry with other low bits. -/
theorem renderSprites_withSprites {table : Memory SpriteEntry} {s : State}
    (h : ∀ n < 40, SameButLowBits (table.read n) (s.env.sprite n)) (line : Nat) :
    renderSprites line (withSprites table s) = withSprites table (renderSprites line s) := by
  have hloops := foldl_range_rel (N := Config.nSprites) (fun a b => b = withSprites table a ∧ a.env = s.env)
    (spriteEntry (spritePass line s.env)) (spriteEntry (spritePass line s.env)) (s := clearClaim s)
    (t := withSprites table (clearClaim s)) ⟨rfl, rfl⟩ fun n a b hn ⟨hab, henv⟩ => by
      refine ⟨?_, by rw [spriteEntry_env, henv]⟩
      rw [hab, spriteEntry_withSprites (henv ▸ h n hn)]
  exact hloops.1

/-- The refusal, the pass and the row clear each commute with the change of the table. -/
theorem exec_sprline_withSprites {table : Memory SpriteEntry} {s t : State} {line : Int}
    (hsame : ∀ n < 40, SameButLowBits (table.read n) (s.env.sprite n)) (h : exec (.sprline line) s = .next t) :
    exec (.sprline line) (withSprites table s) = .next (withSprites table t) := by
  cases hf : s.fault with
  | true =>
    rw [exec_refused hf] at h
    cases h
    exact exec_refused (s := withSprites table s) hf _
  | false =>
    rw [execSprline_run hf] at h
    injection h with h
    rw [← h, execSprline_run (s := withSprites table s) hf, ← respond_withSprites, withSprites_spritesEnabled]
    split
    · split
      · rw [renderSprites_withSprites hsame]
      · rw [clearSpriteRow_withSprites]
    · rfl

/-- No operation writes the environment (R57). -/
theorem exec_env {i : Instr} {s t : State} (h : exec i s = .next t) : t.env = s.env := by
  rcases exec_next h with ⟨-, rfl⟩ | ⟨-, heffect⟩
  · rfl
  · exact (effect_outside heffect).1

/-- Settles O47: the operation commutes with the change of the table. -/
theorem lowAttributeBitsHaveNoEffect : Obligations.LowAttributeBitsHaveNoEffect := by
  intro line s t table htable h
  have hsame : ∀ n < 40, SameButLowBits (table.read n) (s.env.sprite n) := fun n hn =>
    have ⟨hy, hx, htile, hattr⟩ := htable n hn
    ⟨hy, hx, htile, hattr⟩
  have hexec := exec_sprline_withSprites hsame h
  rwa [withSprites, withSprites, exec_env h] at hexec

end Sys2Proof.Proofs
end

/-! PROOFS. What a step runs, what no operation writes, and that a disciplined stream meets no stale row (O5, O57, O59). -/
section
namespace Sys2Proof.Proofs

open Sys2Proof Sys2Proof.Machine

/-- Settles O5: the step takes the word off the stream, and running a legal word is running its operation. -/
theorem aStepRunsTheDecodedInstruction : Obligations.AStepRunsTheDecodedInstruction := by
  intro s w rest i hp hw
  rw [step_command hp, runWord_ok hw]
  rfl

/-- Settles O59: a refusal changes the response only, and an effect leaves the environment, the stream and the count of draws. -/
theorem operationsNeverWriteTheEnvironment : Obligations.OperationsNeverWriteTheEnvironment := by
  intro i s
  obtain ⟨t, ht, ⟨-, rfl⟩ | ⟨-, heffect⟩⟩ := exec_cases i s
  · exact ⟨_, ht, refuse_env s, refuse_pending s, refuse_draws s⟩
  · exact ⟨t, ht, effect_outside heffect⟩

/-- What every step keeps, a run of any length keeps. -/
theorem run_keeps {P : State → Prop} (hstep : ∀ s t, P s → step s = .next t → P t) {k : Nat} {s t : State} (hs : P s)
    (hrun : Host.Core.run Sys2Proof.core k s = .next t) : P t := by
  induction k generalizing s with
  | zero =>
    cases hrun
    exact hs
  | succ k ih =>
    obtain ⟨u, hu, -⟩ := step_cases s
    rw [run_succ hu] at hrun
    exact ih (hstep s u hs hu) hrun

theorem not_callsGetRow_of_dropsCache {e : Event} (hdrops : e.dropsCache = true) : e.callsGetRow = false := by
  cases e with
  | command w =>
    have hw : decode w = .ok .inval := of_decide_eq_true hdrops
    simp [Event.callsGetRow, hw, callsGetRow]
  | notify => rfl
  | collaborator env => rfl
  | reset => rfl

/-- The discipline in use: where a lookup comes next, no pattern row has changed since the cache was last dropped (R64). -/
theorem not_dirty_of_callsGetRow {env : Env} {dirty : Bool} {e : Event} {rest : List Event}
    (h : Disciplined env dirty (e :: rest)) (hcalls : e.callsGetRow = true) : dirty = false := by
  cases h with
  | drop _ _ _ _ hdrops =>
    rw [not_callsGetRow_of_dropsCache hdrops] at hcalls
    cases hcalls
  | sameRows => cases hcalls
  | newRows => cases hcalls
  | command _ _ w _ _ hclean =>
    cases dirty with
    | false => rfl
    | true =>
      rw [hclean rfl] at hcalls
      cases hcalls

/-- Settles O57: the run keeps the discipline (`step_disciplined`), which makes the cache coherent where a lookup comes next. -/
theorem disciplinedStreamsNeverUseStaleRows : Obligations.DisciplinedStreamsNeverUseStaleRows := by
  intro s t k hc hstream hrun hf ⟨e, rest, hp, hcalls⟩ tile r src
  obtain ⟨dirty, hrest, hcoherent⟩ := run_keeps (P := fun u => ∃ dirty, u.disciplined dirty)
    (fun _ _ ⟨_, hu⟩ hstep => step_disciplined hstep hu) ⟨false, hstream, fun _ _ => hc⟩ hrun
  rw [hp] at hrest
  have hnow : t.coherent := hcoherent hf (not_dirty_of_callsGetRow hrest hcalls)
  rw [getRow_fst, rowFor_coherent hnow, rowOf_eq_rowBytes]

end Sys2Proof.Proofs
end

/-! PROOFS. A pixel written and read back (O52), and the values on the ports (O53). -/
section
namespace Sys2Proof.Proofs

open Sys2Proof Sys2Proof.Machine

/-! ### A pixel written and read back -/

section
variable {s : State} (hf : s.fault = false) {x y : Byte} (hx : x.toNat < 160) (hy : y.toNat < 144) (surf : Surf)
include hf hx hy

/-- `WRPIX` inside the surface, in full (R200). -/
theorem execWrpix_inside (v : Rgba) :
    exec (.wrpix surf x y v) s = .next (respond 0 (writePixel surf x.toNat y.toNat v s)) := by
  rw [execWrpix_run hf, if_pos ((inExtent_iff x y).mpr ⟨hx, hy⟩)]

/-- `RDPIX` inside the surface, in full (R203). -/
theorem execRdpix_inside :
    exec (.rdpix surf x y) s = .next (respond ((s.surface surf).read (pixAddr x.toNat y.toNat)) s) := by
  rw [execRdpix_run hf, if_pos ((inExtent_iff x y).mpr ⟨hx, hy⟩), readPixel_eq]

end

@[simp] theorem respond_surface (d : BitVec 32) (s : State) (surf : Surf) : (respond d s).surface surf = s.surface surf := by
  cases surf <;> rfl

/-- Two pixel operands inside a surface have one address exactly where they are one pixel (R12). -/
theorem pixAddr_toNat_inj {x y x' y' : Byte} (hx : x.toNat < 160) (hx' : x'.toNat < 160) :
    pixAddr x'.toNat y'.toNat = pixAddr x.toNat y.toNat ↔ x' = x ∧ y' = y := by
  rw [pixAddr_inj hx' hx, BitVec.toNat_inj, BitVec.toNat_inj]

/-- Settles O52: both reads answer what the surface holds at the address, and `surface_writePixel_read` says what the write left
there. -/
theorem aPixelWrittenIsThePixelRead : Obligations.APixelWrittenIsThePixelRead := by
  intro surf surf' x y x' y' v s t hf hx hy hx' hy' hwrite
  rw [execWrpix_inside hf hx hy] at hwrite
  cases hwrite
  refine ⟨_, _, execRdpix_inside (by simpa using hf) hx' hy' surf', execRdpix_inside hf hx' hy' surf', ?_⟩
  rw [respond_resp, respond_resp, respond_surface, surface_writePixel_read]
  simp only [pixAddr_toNat_inj hx hx']
  split <;> rfl

/-! ### Fields joined on a channel -/

/-- The number two joined fields stand for. -/
theorem toNat_append_eq_add {v w : Nat} (a : BitVec v) (b : BitVec w) : (a ++ b).toNat = a.toNat * 2 ^ w + b.toNat := by
  rw [BitVec.toNat_append, ← Nat.shiftLeft_add_eq_or_of_lt b.isLt, Nat.shiftLeft_eq]

theorem bytePair_ofChannel_onChannel (b : BytePair) : BytePair.ofChannel b.onChannel = b := by
  simp only [BytePair.ofChannel, BytePair.onChannel, slice_low, BitVec.extractLsb'_append_eq_left]

theorem bytePair_onChannel_toNat (b : BytePair) : b.onChannel.toNat = b.lo.toNat + 256 * b.hi.toNat := by
  rw [BytePair.onChannel, toNat_append_eq_add]
  omega

theorem spriteEntry_ofChannel_onChannel (e : SpriteEntry) : SpriteEntry.ofChannel e.onChannel = e := by
  have hy : e.onChannel.extractLsb' 0 8 = e.y := slice_low ..
  have hx : e.onChannel.extractLsb' 8 8 = e.x := slice_mid _ _ _ rfl
  have htile : e.onChannel.extractLsb' 16 8 = e.tile := by
    rw [SpriteEntry.onChannel, BitVec.extractLsb'_append_eq_of_le (by decide), slice_mid _ _ _ rfl]
  have hattr : e.onChannel.extractLsb' 24 8 = e.attr := by
    rw [SpriteEntry.onChannel, BitVec.extractLsb'_append_eq_of_le (by decide),
      BitVec.extractLsb'_append_eq_of_le (by decide), BitVec.extractLsb'_append_eq_left]
  rw [SpriteEntry.ofChannel, hy, hx, htile, hattr]

theorem spriteEntry_onChannel_toNat (e : SpriteEntry) : e.onChannel.toNat =
    e.y.toNat + 2 ^ 8 * e.x.toNat + 2 ^ 16 * e.tile.toNat + 2 ^ 24 * e.attr.toNat := by
  simp only [SpriteEntry.onChannel, toNat_append_eq_add]
  omega

theorem surfaceByte_of_pixel (s : State) (surf : Surf) (a : Nat) {j : Nat} (hj : j < 4) :
    surfaceByte s surf (4 * a + j) = ((s.surface surf).read a).extractLsb' (24 - 8 * j) 8 := by
  have hdiv : (4 * a + j) / 4 = a := by omega
  have hmod : (4 * a + j) % 4 = j := by omega
  rw [surfaceByte, hdiv, hmod]

/-- Settles O53: every channel is a join of fields, read back by slices and weighed by `toNat_append_eq_add`; a byte's offset
splits into its pixel and its place in it. -/
theorem portsLoseNothing : Obligations.PortsLoseNothing :=
  ⟨fun b => ⟨bytePair_ofChannel_onChannel b, bytePair_onChannel_toNat b⟩,
    fun e => ⟨spriteEntry_ofChannel_onChannel e, spriteEntry_onChannel_toNat e⟩,
    fun gx gy => toNat_append_eq_add gy gx, fun t r => toNat_append_eq_add t r,
    fun s surf a _ hj => surfaceByte_of_pixel s surf a hj⟩

end Sys2Proof.Proofs
end

/-! PROOFS. The command words and the operations they stand for, and the rows of the opcode table (O1, O2, O3, O4). -/
section
namespace Sys2Proof.Proofs

open Sys2Proof Sys2Proof.Machine

/-! ### What a format names of an assembled word -/

/-- How many bits of `a` a format names; they are the lowest ones (R82). -/
def operandWidth : Format → Nat
  | .n => 0
  | .b1 => 8
  | .b2 => 16
  | .k => 12
  | .l => 16
  | .s => 1
  | .p => 17
  | .pd => 17

theorem operandBits_getLsbD (f : Format) :
    ∀ i < 56, f.operandBits.getLsbD i = decide (if i < 32 then f = .pd else i - 32 < operandWidth f) := by
  cases f <;> decide

/-- A word's must-be-zero bits are zero exactly where the number in `a` fits the bits named and only `PD` carries data (R82). -/
theorem assemble_mustBeZero_iff (op : Byte) (a : BitVec 24) (d : Rgba) (f : Format) :
    assemble op a d &&& f.mustBeZero = 0 ↔ a.toNat < 2 ^ operandWidth f ∧ (f ≠ .pd → d = 0) := by
  simp only [mustBeZero_iff, assemble_getLsbD]
  constructor
  · refine fun h => ⟨Nat.lt_pow_two_of_testBit _ fun i hi => ?_, fun hf => BitVec.eq_of_getLsbD_eq fun i hi => ?_⟩
    · by_cases hi24 : i < 24
      · have hbit := h (32 + i) (by omega) (by rw [operandBits_getLsbD f _ (by omega)]; simpa using hi)
        have hzero : a.getLsbD i = false := by simpa [show 32 + i < 56 by omega] using hbit
        exact hzero
      · exact BitVec.getLsbD_of_ge a i (by omega)
    · have hbit := h i (by omega) (by rw [operandBits_getLsbD f i (by omega)]; simp [hi, hf])
      simpa [hi] using hbit
  · rintro ⟨ha, hd⟩ i hi hnamed
    rw [operandBits_getLsbD f i hi] at hnamed
    by_cases hi32 : i < 32
    · have hf : f ≠ .pd := by simpa [hi32] using hnamed
      simp [hi32, hd hf]
    · have hge : operandWidth f ≤ i - 32 := by simpa [hi32] using hnamed
      simp only [hi32, hi, if_true, if_false]
      exact Nat.testBit_lt_two_pow (ha.trans_le (Nat.pow_le_pow_right (by decide) hge))

/-- Every word is `{op, a, d}` (R81). -/
theorem exists_eq_assemble (w : CmdWord) : ∃ op a d, w = assemble op a d := by
  refine ⟨opField w, w.extractLsb' 32 24, dField w, ?_⟩
  rw [assemble, opField, dField,
    BitVec.extractLsb'_append_extractLsb'_eq_extractLsb' (start₁ := 32) (len₁ := 24) (by decide),
    BitVec.extractLsb'_append_extractLsb'_eq_extractLsb' (by decide)]
  exact BitVec.extractLsb'_eq_self.symm

/-! ### The encoding of an operation -/

/-- The format of an operation (R84). -/
def formatOfInstr : Instr → Format
  | .decrow _ _ => .b2
  | .decpal _ => .b1
  | .getrow _ _ _ => .k
  | .inval => .n
  | .wrap _ _ => .b2
  | .bgline _ => .l
  | .sprline _ => .l
  | .clrframe => .n
  | .clear _ => .s
  | .wrpix _ _ _ _ => .pd
  | .rdpix _ _ _ => .p

theorem formatOf_opcode (i : Instr) : formatOf i.opcode = some (formatOfInstr i) := by
  cases i <;> rfl

/-- The operand field of an operation fits the bits its format names. -/
theorem aField_toNat_lt (i : Instr) : i.aField.toNat < 2 ^ operandWidth (formatOfInstr i) := by
  cases i <;> simp only [Instr.aField, formatOfInstr, operandWidth, toNat_append_eq_add, BitVec.toNat_ofNat] <;> omega

theorem dataField_eq_zero {i : Instr} (h : formatOfInstr i ≠ .pd) : i.dataField = 0 := by
  cases i with
  | wrpix surf x y rgba => exact absurd rfl h
  | _ => rfl

theorem encode_mustBeZero (i : Instr) : encode i &&& (formatOfInstr i).mustBeZero = 0 :=
  (assemble_mustBeZero_iff ..).mpr ⟨aField_toNat_lt i, dataField_eq_zero⟩

section
variable (op : Byte) (d : Rgba)

theorem b0Field_low (x : BitVec 16) (b0 : Byte) : b0Field (assemble op (x ++ b0) d) = b0 :=
  (b0Field_assemble ..).trans (slice_low ..)

theorem b1Field_mid (x b1 b0 : Byte) : b1Field (assemble op (x ++ b1 ++ b0) d) = b1 :=
  (b1Field_assemble ..).trans (slice_mid _ _ _ rfl)

theorem rowField_mid (x : BitVec 13) (row : U3) (tile : Byte) : rowField (assemble op (x ++ row ++ tile) d) = row :=
  (rowField_assemble ..).trans (slice_mid _ _ _ rfl)

theorem lineField_low {line : Int} (h : lineInRange line = true) (x : Byte) :
    lineField (assemble op (x ++ BitVec.ofInt 16 line) d) = line := by
  have hslice : (x ++ BitVec.ofInt 16 line).extractLsb' 0 16 = BitVec.ofInt 16 line := slice_low ..
  exact (lineField_assemble ..).trans ((congrArg BitVec.toInt hslice).trans (line_roundTrip h))

theorem surfField_low (x : BitVec 23) (surf : Surf) : surfField 32 (assemble op (x ++ surf.bit) d) = surf := by
  rw [surfField_assemble op _ d (le_refl 32) (by decide)]
  cases surf <;> simp only [Surf.bit, BitVec.getLsbD_append] <;> rfl

end

/-- The operands of an operation stand in its word where its format names them (R82, R84, R88, R89). -/
theorem operandsOf_encode {i : Instr} (h : i.wellFormed = true) : operandsOf (encode i) = i := by
  cases i <;>
    simp only [operandsOf, encode, opField_assemble, Instr.opcode, Instr.aField, Instr.dataField, reduceIte, BitVec.reduceEq,
      BitVec.ofNat_eq_ofNat]
  case decrow lo hi => rw [b0Field_low, b1Field_mid]
  case decpal byte => rw [b0Field_low]
  case getrow tile row src => rw [b0Field_low, rowField_mid, srcField_key]
  case wrap scroll offset => rw [b0Field_low, b1Field_mid]
  case bgline line => rw [lineField_low _ _ h]
  case sprline line => rw [lineField_low _ _ h]
  case clear surf => rw [surfField_low]
  case wrpix surf x y rgba => rw [surfField_pixel, b0Field_low, b1Field_mid, dField_assemble]
  case rdpix surf x y => rw [surfField_pixel, b0Field_low, b1Field_mid]

theorem decode_encode {i : Instr} (h : i.wellFormed = true) : decode (encode i) = .ok i := by
  have hdecode := decode_assemble (formatOf_opcode i) (encode_mustBeZero i)
  rwa [← encode, operandsOf_encode h] at hdecode

/-- Settles O1: the word has the format of its operation, its other bits are zero, and its fields hold the operands. -/
theorem decodingAnEncodingGivesTheInstruction : Obligations.DecodingAnEncodingGivesTheInstruction :=
  fun _ h => decode_encode h

/-! ### The operation of a legal word -/

/-- A word with an assigned operation code, the code's format and the operation its fields hold, one constructor per row of the
operation map (R84). -/
inductive ReadsAs (w : CmdWord) : Format → Instr → Prop where
  | decrow : opField w = 0x01 → ReadsAs w .b2 (.decrow (b0Field w) (b1Field w))
  | decpal : opField w = 0x02 → ReadsAs w .b1 (.decpal (b0Field w))
  | getrow : opField w = 0x03 → ReadsAs w .k (.getrow (b0Field w) (rowField w) (srcField w))
  | inval : opField w = 0x04 → ReadsAs w .n .inval
  | wrap : opField w = 0x05 → ReadsAs w .b2 (.wrap (b1Field w) (b0Field w))
  | bgline : opField w = 0x06 → ReadsAs w .l (.bgline (lineField w))
  | sprline : opField w = 0x07 → ReadsAs w .l (.sprline (lineField w))
  | clrframe : opField w = 0x08 → ReadsAs w .n .clrframe
  | clear : opField w = 0x09 → ReadsAs w .s (.clear (surfField 32 w))
  | wrpix : opField w = 0x0A → ReadsAs w .pd (.wrpix (surfField 48 w) (b0Field w) (b1Field w) (dField w))
  | rdpix : opField w = 0x0B → ReadsAs w .p (.rdpix (surfField 48 w) (b0Field w) (b1Field w))

/-- The assigned operation codes (R84). -/
theorem assigned_of_formatOf {op : Byte} {f : Format} (h : formatOf op = some f) :
    op = 0x01 ∨ op = 0x02 ∨ op = 0x03 ∨ op = 0x04 ∨ op = 0x05 ∨ op = 0x06 ∨ op = 0x07 ∨ op = 0x08 ∨ op = 0x09 ∨ op = 0x0A ∨
      op = 0x0B := by
  by_contra hnone
  simp only [not_or] at hnone
  simp only [formatOf, hnone, if_false] at h
  cases h

theorem operandsOf_readsAs {w : CmdWord} {f : Format} (hf : formatOf (opField w) = some f) : ReadsAs w f (operandsOf w) := by
  rcases assigned_of_formatOf hf with h | h | h | h | h | h | h | h | h | h | h <;>
    rw [h] at hf <;> cases hf <;> rw [operandsOf, h]
  exacts [.decrow h, .decpal h, .getrow h, .inval h, .wrap h, .bgline h, .sprline h, .clrframe h, .clear h, .wrpix h,
    .rdpix h]

/-- A legal word reads as the operation it decodes to, and the bits its format does not name are zero. -/
theorem decode_readsAs {w : CmdWord} {i : Instr} (h : decode w = .ok i) : ∃ f, ReadsAs w f i ∧ w &&& f.mustBeZero = 0 := by
  obtain ⟨f, hf, hz, rfl⟩ := decode_ok h
  exact ⟨f, operandsOf_readsAs hf, hz⟩

theorem extractLsb'_one {n : Nat} (x : BitVec n) (i : Nat) : x.extractLsb' i 1 = BitVec.ofBool (x.getLsbD i) := by
  apply BitVec.eq_of_getLsbD_eq
  intro j hj
  obtain rfl : j = 0 := by omega
  simp

theorem srcField_bit (op : Byte) (a : BitVec 24) (d : Rgba) : (srcField (assemble op a d)).bit = a.extractLsb' 11 1 := by
  rw [srcField_assemble, extractLsb'_one]
  cases a.getLsbD 11 <;> rfl

theorem surfField_bit (op : Byte) (a : BitVec 24) (d : Rgba) {pos : Nat} (h : 32 ≤ pos) (h' : pos < 56) :
    (surfField pos (assemble op a d)).bit = a.extractLsb' (pos - 32) 1 := by
  rw [surfField_assemble op a d h h', extractLsb'_one]
  cases a.getLsbD (pos - 32) <;> rfl

section
variable {w : CmdWord} {f : Format} {i : Instr} (h : ReadsAs w f i)
include h

theorem ReadsAs.opcode_eq : i.opcode = opField w := by
  cases h <;> exact Eq.symm ‹opField w = _›

theorem ReadsAs.format_eq : f = formatOfInstr i := by
  cases h <;> rfl

theorem ReadsAs.wellFormed : i.wellFormed = true := by
  have hline : lineInRange (lineField w) = true :=
    decide_eq_true ⟨BitVec.le_toInt _, Int.le_of_lt_add_one BitVec.toInt_lt⟩
  cases h with
  | bgline => exact hline
  | sprline => exact hline
  | _ => rfl

theorem ReadsAs.dataField_eq (hd : f ≠ .pd → dField w = 0) : i.dataField = dField w := by
  cases h with
  | wrpix => rfl
  | _ => exact (hd (by decide)).symm

end

/-- Where the number in `a` fits the bits its format names, the operation's fields make up all of `a`. Both sides are compared as
numbers, each field weighed by its place. -/
theorem ReadsAs.aField_eq {op : Byte} {a : BitVec 24} {d : Rgba} {f : Format} {i : Instr} (h : ReadsAs (assemble op a d) f i)
    (ha : a.toNat < 2 ^ operandWidth f) : i.aField = a := by
  apply BitVec.eq_of_toNat_eq
  cases h <;>
    simp only [Instr.aField, operandWidth, toNat_append_eq_add, b0Field_assemble, b1Field_assemble, rowField_assemble,
      lineField_assemble, BitVec.ofInt_toInt, srcField_bit, surfField_bit _ _ _ (le_refl 32) (show 32 < 56 by decide),
      surfField_bit _ _ _ (show 32 ≤ 48 by decide) (show 48 < 56 by decide), BitVec.extractLsb'_toNat, BitVec.toNat_ofNat,
      Nat.shiftRight_eq_div_pow] at ha ⊢ <;>
    omega

theorem ReadsAs.encode_eq {w : CmdWord} {f : Format} {i : Instr} (h : ReadsAs w f i) (hz : w &&& f.mustBeZero = 0) :
    encode i = w := by
  obtain ⟨op, a, d, rfl⟩ := exists_eq_assemble w
  obtain ⟨ha, hd⟩ := (assemble_mustBeZero_iff op a d f).mp hz
  rw [encode, h.opcode_eq, h.aField_eq ha, h.dataField_eq (by simpa using hd), opField_assemble, dField_assemble]

/-- Settles O2: the word's fields hold its operation's operands, and no bit outside them is set. -/
theorem encodingADecodingGivesTheWord : Obligations.EncodingADecodingGivesTheWord := by
  intro w i hdecode
  obtain ⟨f, hreads, hz⟩ := decode_readsAs hdecode
  exact ⟨hreads.encode_eq hz, hreads.wellFormed⟩

/-! ### The opcode table -/

theorem mustBeZero_eq_append (f : Format) : f.mustBeZero = 0#8 ++ f.mustBeZero.extractLsb' 0 56 := by
  cases f <;> rfl

/-- What a row of the table says of its operation code: its format, and that the row asks for the code and zeros (R90). -/
theorem opcodeTable_row {row : OpRow} (h : row ∈ opcodeTable) :
    formatOf (opField row.pattern) = some row.format ∧ row.pattern = opField row.pattern ++ 0#56 ∧
      row.mask = BitVec.allOnes 8 ++ row.format.mustBeZero.extractLsb' 0 56 := by
  revert row
  decide

theorem append_inj {v w : Nat} {x x' : BitVec v} {y y' : BitVec w} : x ++ y = x' ++ y' ↔ x = x' ∧ y = y' := by
  refine ⟨fun h => ?_, fun ⟨hx, hy⟩ => hx ▸ hy ▸ rfl⟩
  have hhigh := congrArg (BitVec.extractLsb' w v) h
  have hlow := congrArg (BitVec.extractLsb' 0 w) h
  rw [BitVec.extractLsb'_append_eq_left, BitVec.extractLsb'_append_eq_left] at hhigh
  rw [slice_low, slice_low] at hlow
  exact ⟨hhigh, hlow⟩

/-- A mask that covers the operation code asks for it beside what it asks of the other bits. -/
theorem and_mask_eq_iff (op code : Byte) (z m : BitVec 56) :
    (op ++ z) &&& (BitVec.allOnes 8 ++ m) = code ++ 0#56 ↔ op = code ∧ (op ++ z) &&& (0#8 ++ m) = 0 := by
  have hzero : (op ++ z) &&& (0#8 ++ m) = 0 ↔ z &&& m = 0#56 := by
    rw [BitVec.and_append, BitVec.and_zero, show (0 : BitVec (8 + 56)) = 0#8 ++ 0#56 from rfl, BitVec.append_right_inj]
  rw [hzero, BitVec.and_append, BitVec.and_allOnes, append_inj]

theorem selects_iff {row : OpRow} (h : row ∈ opcodeTable) (w : CmdWord) :
    w &&& row.mask = row.pattern ↔ opField w = opField row.pattern ∧ w &&& row.format.mustBeZero = 0 := by
  obtain ⟨-, hpattern, hmask⟩ := opcodeTable_row h
  have hw : opField w ++ w.extractLsb' 0 56 = w := BitVec.extractLsb'_append_extractLsb' (w := 8) (len := 56)
  have hiff := and_mask_eq_iff (opField w) (opField row.pattern) (w.extractLsb' 0 56) (row.format.mustBeZero.extractLsb' 0 56)
  rwa [hw, ← hpattern, ← hmask, ← mustBeZero_eq_append] at hiff

/-- Every operation has a row of the table, with its mnemonic and its operation code (R84). -/
theorem exists_row (i : Instr) : ∃ row ∈ opcodeTable, row.mnemonic = i.mnemonic ∧ opField row.pattern = i.opcode := by
  have hstatement : Laws.EncodesItsOpcode.Statement i := by
    cases i with
    | decrow => exact Laws.EncodesItsOpcode.decrow ..
    | decpal => exact Laws.EncodesItsOpcode.decpal ..
    | getrow => exact Laws.EncodesItsOpcode.getrow ..
    | inval => exact Laws.EncodesItsOpcode.inval
    | wrap => exact Laws.EncodesItsOpcode.wrap ..
    | bgline => exact Laws.EncodesItsOpcode.bgline ..
    | sprline => exact Laws.EncodesItsOpcode.sprline ..
    | clrframe => exact Laws.EncodesItsOpcode.clrframe
    | clear => exact Laws.EncodesItsOpcode.clear ..
    | wrpix => exact Laws.EncodesItsOpcode.wrpix ..
    | rdpix => exact Laws.EncodesItsOpcode.rdpix ..
  obtain ⟨-, row, hrow, hmnemonic, hcode, -⟩ := hstatement
  exact ⟨row, hrow, hmnemonic, hcode⟩

/-- No two rows share a mnemonic or an operation code. -/
theorem mnemonic_eq_iff_code_eq : ∀ row ∈ opcodeTable, ∀ row' ∈ opcodeTable,
    row'.mnemonic = row.mnemonic ↔ opField row'.pattern = opField row.pattern := by
  decide

/-- Mnemonics and operation codes tell the operations of one row from all others. -/
theorem mnemonic_eq_iff {row : OpRow} (h : row ∈ opcodeTable) (i : Instr) :
    i.mnemonic = row.mnemonic ↔ i.opcode = opField row.pattern := by
  obtain ⟨row', hrow', hmnemonic, hcode⟩ := exists_row i
  rw [← hmnemonic, ← hcode]
  exact mnemonic_eq_iff_code_eq row h row' hrow'

theorem decode_of_mustBeZero {w : CmdWord} {f : Format} (hf : formatOf (opField w) = some f) (hz : w &&& f.mustBeZero = 0) :
    decode w = .ok (operandsOf w) := by
  simp only [decode, hf, hz, if_true]

/-- Settles O3: a row selects the words of its operation code and format, and the code of a legal word is its operation's. -/
theorem aTableRowSelectsExactlyItsWords : Obligations.ATableRowSelectsExactlyItsWords := by
  intro row hrow w
  obtain ⟨hformat, -, -⟩ := opcodeTable_row hrow
  rw [selects_iff hrow]
  constructor
  · rintro ⟨hop, hz⟩
    rw [← hop] at hformat
    have hreads := operandsOf_readsAs hformat
    exact ⟨_, decode_of_mustBeZero hformat hz, (mnemonic_eq_iff hrow _).mpr (hreads.opcode_eq.trans hop)⟩
  · rintro ⟨i, hdecode, hmnemonic⟩
    obtain ⟨f, hreads, hz⟩ := decode_readsAs hdecode
    have hop : i.opcode = opField row.pattern := (mnemonic_eq_iff hrow i).mp hmnemonic
    have hf : f = row.format := by
      rw [← hop, formatOf_opcode] at hformat
      exact hreads.format_eq.trans (Option.some.inj hformat)
    exact ⟨hreads.opcode_eq.symm.trans hop, hf ▸ hz⟩

/-! ### The worked encodings -/

/-- Settles O4: the fifteen encodings are computed, and `decode_encode` reads them back. -/
theorem workedEncodings : Obligations.WorkedEncodings := by
  refine ⟨fun p hp => ?_, by decide, by decide, by decide⟩
  obtain ⟨hencode, hwf⟩ : encode p.1 = p.2 ∧ p.1.wellFormed = true := by
    revert p
    decide
  exact ⟨hencode, hencode ▸ decode_encode hwf⟩

end Sys2Proof.Proofs
end

/-! PROOFS. The response that shows the latch, and a row packed and unpacked (O14, O18). -/
section
namespace Sys2Proof.Proofs

open Sys2Proof Sys2Proof.Machine

/-! ### The response -/

/-- The response port shows the latch, and the fault code when it is set (R83). -/
def showsLatch (t : State) : Prop :=
  ∃ r, t.resp = some r ∧ r.getLsbD 32 = t.fault ∧ (t.fault = true → r.extractLsb' 0 32 = 0#30 ++ t.fcode.bits)

theorem showsLatch_of_fault {t : State} (hf : t.fault = true) (hresp : t.resp = some (faultResponse t.fcode)) :
    showsLatch t :=
  ⟨_, hresp, (respFault_fault _).trans hf.symm, fun _ => respData_fault _⟩

theorem showsLatch_of_ok {t : State} {d : BitVec 32} (hf : t.fault = false) (hresp : t.resp = some (okResponse d)) :
    showsLatch t :=
  ⟨_, hresp, (respFault_ok d).trans hf.symm, fun h => by simp [hf] at h⟩

theorem effect_showsLatch {i : Instr} {s t : State} (hf : s.fault = false) (h : Effect i s t) : showsLatch t := by
  rcases effect_latch h with ⟨hfault, -, d, hresp⟩ | ⟨rfl, -⟩
  · exact showsLatch_of_ok (hfault.trans hf) hresp
  · exact showsLatch_of_fault rfl rfl

/-- Settles O14: the word is refused, its operation runs, or it is illegal, and each answers with the latch it leaves. -/
theorem theResponseShowsTheLatch : Obligations.TheResponseShowsTheLatch := by
  intro s w rest hp
  obtain ⟨t, hstep, hcase⟩ := step_cases s
  have hshows : showsLatch t := by
    cases hcase with
    | refused _ _ _ _ hf => exact showsLatch_of_fault hf rfl
    | ran _ _ rest' _ _ _ hf heffect => exact effect_showsLatch (s := setPending rest' s) hf heffect
    | illegal => exact showsLatch_of_fault rfl rfl
    | notified _ _ hf => exact showsLatch_of_ok hf rfl
    | idle hp' | collaborator _ _ hp' | reset _ hp' => cases hp.symm.trans hp'
  obtain ⟨r, hshows⟩ := hshows
  exact ⟨t, r, hstep, hshows⟩

/-! ### Rows packed -/

/-- A packed row as a number, the leftmost pixel the most significant (R85). -/
theorem packRow_toNat (row : Row) : (packRow row).toNat =
    2 ^ 14 * row[0].toNat + 2 ^ 12 * row[1].toNat + 2 ^ 10 * row[2].toNat + 2 ^ 8 * row[3].toNat + 2 ^ 6 * row[4].toNat +
      2 ^ 4 * row[5].toNat + 2 ^ 2 * row[6].toNat + row[7].toNat := by
  simp only [packRow, toNat_append_eq_add]
  omega

theorem packRow_pixel (row : Row) (k : Fin 8) : (packRow row).extractLsb' (14 - 2 * k.val) 2 = row[k] := by
  apply BitVec.eq_of_toNat_eq
  rw [BitVec.extractLsb'_toNat, packRow_toNat, Nat.shiftRight_eq_div_pow]
  fin_cases k <;> simp only [Fin.getElem_fin] <;> omega

theorem unpackRow_packRow (row : Row) : unpackRow (packRow row) = row := by
  apply Vector.ext
  intro k hk
  rw [unpackRow, Vector.getElem_ofFn]
  exact packRow_pixel row ⟨k, hk⟩

theorem packRow_unpackRow (v : BitVec 16) : packRow (unpackRow v) = v := by
  have hjoin (k n : Nat) : v.extractLsb' (k + 2) n ++ v.extractLsb' k 2 = v.extractLsb' k (n + 2) :=
    BitVec.extractLsb'_append_extractLsb'_eq_extractLsb' rfl
  have hall : v.extractLsb' 14 2 ++ v.extractLsb' 12 2 ++ v.extractLsb' 10 2 ++ v.extractLsb' 8 2 ++ v.extractLsb' 6 2 ++
      v.extractLsb' 4 2 ++ v.extractLsb' 2 2 ++ v.extractLsb' 0 2 = v.extractLsb' 0 16 := by
    rw [hjoin 12, hjoin 10, hjoin 8, hjoin 6, hjoin 4, hjoin 2, hjoin 0]
  simp only [packRow, unpackRow, Vector.getElem_ofFn]
  exact hall.trans BitVec.extractLsb'_eq_self

/-- Settles O18: a packed row is the sum of its pixels weighed by their places, so its slices are the pixels, and the slices of
a value join to the value. -/
theorem packRowPlacesThePixels : Obligations.PackRowPlacesThePixels :=
  ⟨packRow_pixel, unpackRow_packRow, packRow_unpackRow, by decide, by decide⟩

end Sys2Proof.Proofs
end

/-! PROOFS. The tile decoder lane by lane, and the command that answers a packed row (O15, O16, O17). -/
section
namespace Sys2Proof.Proofs

open Sys2Proof Sys2Proof.Machine

/-! ### The lanes of a decoded row -/

/-- `decodeRow` lane by lane: everything below is read off this (R110). -/
theorem decodeRow_lane (lo hi : Byte) {k : Nat} (hk : k < 8) :
    (decodeRow lo hi)[k] = BitVec.ofBool (hi.getLsbD (7 - k)) ++ BitVec.ofBool (lo.getLsbD (7 - k)) :=
  Vector.getElem_ofFn hk

theorem decodeRow_lane_low (lo hi : Byte) {k : Nat} (hk : k < 8) :
    (decodeRow lo hi)[k].getLsbD 0 = lo.getLsbD (7 - k) := by
  rw [decodeRow_lane lo hi hk]
  cases hi.getLsbD (7 - k) <;> cases lo.getLsbD (7 - k) <;> rfl

theorem decodeRow_lane_high (lo hi : Byte) {k : Nat} (hk : k < 8) :
    (decodeRow lo hi)[k].getLsbD 1 = hi.getLsbD (7 - k) := by
  rw [decodeRow_lane lo hi hk]
  cases hi.getLsbD (7 - k) <;> cases lo.getLsbD (7 - k) <;> rfl

theorem decodeRow_lane_toNat (lo hi : Byte) (k : Fin 8) :
    (decodeRow lo hi)[k].toNat = (lo.getLsbD (7 - k.val)).toNat + 2 * (hi.getLsbD (7 - k.val)).toNat := by
  rw [Fin.getElem_fin, decodeRow_lane lo hi k.isLt, toNat_append_eq_add, BitVec.toNat_ofBool, BitVec.toNat_ofBool]
  omega

/-- Settles O15: the two bits of a lane, joined, weigh 2 and 1. -/
theorem decodeRowLanes : Obligations.DecodeRowLanes := decodeRow_lane_toNat

/-! ### A row and its two planes -/

/-- The bits of weight `2 ^ plane` of a row's pixels as a byte, the leftmost pixel in bit 7. -/
def planeOf (row : Row) (plane : Nat) : Byte := BitVec.ofFnLE fun b : Fin 8 => row[7 - b.val].getLsbD plane

theorem planeOf_getLsbD (row : Row) (plane : Nat) {b : Nat} (hb : b < 8) :
    (planeOf row plane).getLsbD b = row[7 - b].getLsbD plane := by
  rw [planeOf, BitVec.getLsbD_ofFnLE, dif_pos hb]

theorem planeOf_decodeRow_low (lo hi : Byte) : planeOf (decodeRow lo hi) 0 = lo := by
  apply BitVec.eq_of_getLsbD_eq
  intro b hb
  rw [planeOf_getLsbD _ _ hb, decodeRow_lane_low, show 7 - (7 - b) = b by omega]

theorem planeOf_decodeRow_high (lo hi : Byte) : planeOf (decodeRow lo hi) 1 = hi := by
  apply BitVec.eq_of_getLsbD_eq
  intro b hb
  rw [planeOf_getLsbD _ _ hb, decodeRow_lane_high, show 7 - (7 - b) = b by omega]

theorem decodeRow_planeOf (row : Row) : decodeRow (planeOf row 0) (planeOf row 1) = row := by
  apply Vector.ext
  intro k hk
  have hplane (plane : Nat) : (planeOf row plane).getLsbD (7 - k) = row[k].getLsbD plane := by
    rw [planeOf_getLsbD _ _ (show 7 - k < 8 by omega)]
    simp only [show 7 - (7 - k) = k by omega]
  apply BitVec.eq_of_getLsbD_eq
  intro j hj
  obtain rfl | rfl : j = 0 ∨ j = 1 := by omega
  · rw [decodeRow_lane_low, hplane]
  · rw [decodeRow_lane_high, hplane]

theorem decodeRow_injective {lo hi lo' hi' : Byte} (h : decodeRow lo hi = decodeRow lo' hi') : lo = lo' ∧ hi = hi' := by
  constructor
  · rw [← planeOf_decodeRow_low lo hi, h, planeOf_decodeRow_low]
  · rw [← planeOf_decodeRow_high lo hi, h, planeOf_decodeRow_high]

/-! ### Planes reversed, rows packed -/

theorem byte_reverse_getLsbD (b : Byte) {i : Nat} (hi : i < 8) : b.reverse.getLsbD i = b.getLsbD (7 - i) := by
  rw [BitVec.getLsbD_reverse, BitVec.getMsbD_eq_getLsbD, decide_eq_true hi, Bool.true_and]

theorem decodeRow_reverse (lo hi : Byte) (k : Fin 8) :
    (decodeRow lo.reverse hi.reverse)[k] = (decodeRow lo hi)[7 - k.val] := by
  rw [Fin.getElem_fin, decodeRow_lane _ _ k.isLt, decodeRow_lane, byte_reverse_getLsbD, byte_reverse_getLsbD] <;> omega

/-- Bit `j` of pixel `k` of a row, in its place in the packed row (R85). -/
theorem packRow_getLsbD (row : Row) {k j : Nat} (hk : k < 8) (hj : j < 2) :
    (packRow row).getLsbD (14 - 2 * k + j) = row[k].getLsbD j := by
  have hpixel : (packRow row).extractLsb' (14 - 2 * k) 2 = row[k] := packRow_pixel row ⟨k, hk⟩
  rw [← hpixel, BitVec.getLsbD_extractLsb', decide_eq_true hj, Bool.true_and]

/-- Law 7 of R113, the bit interleave. -/
theorem packRow_decodeRow_getLsbD (lo hi : Byte) {b : Nat} (hb : b < 8) :
    (packRow (decodeRow lo hi)).getLsbD (2 * b) = lo.getLsbD b ∧
      (packRow (decodeRow lo hi)).getLsbD (2 * b + 1) = hi.getLsbD b := by
  have hk : 7 - b < 8 := by omega
  have hplace : 14 - 2 * (7 - b) = 2 * b := by omega
  have hlow := packRow_getLsbD (decodeRow lo hi) hk (j := 0) (by omega)
  have hhigh := packRow_getLsbD (decodeRow lo hi) hk (j := 1) (by omega)
  rw [decodeRow_lane_low, hplace, show 7 - (7 - b) = b by omega] at hlow
  rw [decodeRow_lane_high, hplace, show 7 - (7 - b) = b by omega] at hhigh
  exact ⟨hlow, hhigh⟩

/-! ### The laws and the command -/

/-- A plane of zeros adds nothing, and equal planes weigh 3 together (laws 3 and 4 of R113). -/
theorem decodeRow_special_planes (b : Byte) (k : Fin 8) :
    (decodeRow b 0)[k].toNat = (b.getLsbD (7 - k.val)).toNat ∧
      (decodeRow 0 b)[k].toNat = 2 * (b.getLsbD (7 - k.val)).toNat ∧
      (decodeRow b b)[k].toNat = 3 * (b.getLsbD (7 - k.val)).toNat := by
  have hzero : ((0 : Byte).getLsbD (7 - k.val)).toNat = 0 := congrArg Bool.toNat BitVec.getLsbD_zero
  simp only [decodeRow_lane_toNat, hzero]
  omega

/-- Settles O16: a lane is its two plane bits, which gives independence, the bound and the arithmetic laws; the planes of a row
are the inverse of `decodeRow`; reversal and packing move the lanes. -/
theorem decodeRowLaneLaws : Obligations.DecodeRowLaneLaws := by
  refine ⟨fun lo hi lo' hi' k hlo hhi => ?independent, fun lo hi k => ?bound, fun lo hi k => ?bits,
    fun _ _ _ _ => decodeRow_injective, fun row => ⟨_, _, decodeRow_planeOf row⟩, decodeRow_special_planes,
    fun lo hi => decodeRow_lane_toNat hi lo, decodeRow_reverse, fun lo hi b => ?interleave⟩
  case independent =>
    rw [Fin.getElem_fin, Fin.getElem_fin, decodeRow_lane _ _ k.isLt, decodeRow_lane _ _ k.isLt, hlo, hhi]
  case bound => exact Nat.le_of_lt_succ (decodeRow lo hi)[k].isLt
  case bits => exact ⟨(decodeRow_lane_low lo hi k.isLt).symm, (decodeRow_lane_high lo hi k.isLt).symm⟩
  case interleave => exact (packRow_decodeRow_getLsbD lo hi b.isLt).symm

/-- Settles O17: the data are the packed row, whose bits are the interleave. -/
theorem decrowAnswersTheInterleave : Obligations.DecrowAnswersTheInterleave :=
  fun lo hi _ hfault =>
    ⟨packRow (decodeRow lo hi), execDecrow_run hfault lo hi, fun _ hb => packRow_decodeRow_getLsbD lo hi hb⟩

end Sys2Proof.Proofs
end

/-! PROOFS. The palette resolver lane by lane, and the command that answers a packed palette (O19, O20, O21). -/
section
namespace Sys2Proof.Proofs

open Sys2Proof Sys2Proof.Machine

/-! ### The lanes of a decoded palette -/

theorem decodePalette_lane (b : Byte) {i : Nat} (hi : i < 4) : (decodePalette b)[i] = b.extractLsb' (2 * i) 2 :=
  Vector.getElem_ofFn hi

/-- A lane is its two bits, the one of weight 2 first (R120, R121). -/
theorem decodePalette_lane_bits (b : Byte) {i : Nat} (hi : i < 4) :
    (decodePalette b)[i] = BitVec.ofBool (b.getLsbD (2 * i + 1)) ++ BitVec.ofBool (b.getLsbD (2 * i)) := by
  rw [decodePalette_lane b hi, ← extractLsb'_one, ← extractLsb'_one]
  exact (BitVec.extractLsb'_append_extractLsb'_eq_extractLsb' (len₁ := 1) (len₂ := 1) rfl).symm

/-- Settles O19: the two bits of a lane, joined, weigh 2 and 1. -/
theorem decodePaletteFields : Obligations.DecodePaletteFields := by
  intro b i
  rw [Fin.getElem_fin, decodePalette_lane_bits b i.isLt, toNat_append_eq_add, BitVec.toNat_ofBool, BitVec.toNat_ofBool]
  omega

/-- Law 3 of R124, a lane as arithmetic on the byte. -/
theorem decodePalette_lane_toNat (b : Byte) (i : Fin 4) : (decodePalette b)[i].toNat = b.toNat / 4 ^ i.val % 4 := by
  rw [Fin.getElem_fin, decodePalette_lane b i.isLt, BitVec.extractLsb'_toNat, Nat.shiftRight_eq_div_pow, Nat.pow_mul]

/-! ### Palettes packed -/

/-- A packed palette as a number, entry 0 the least significant (R86). -/
theorem packPal_toNat (pal : Pal) :
    (packPal pal).toNat = 2 ^ 6 * pal[3].toNat + 2 ^ 4 * pal[2].toNat + 2 ^ 2 * pal[1].toNat + pal[0].toNat := by
  simp only [packPal, toNat_append_eq_add]
  omega

theorem decodePalette_packPal (pal : Pal) : decodePalette (packPal pal) = pal := by
  apply Vector.ext
  intro i hi
  apply BitVec.eq_of_toNat_eq
  have hlane : (decodePalette (packPal pal))[i].toNat = (packPal pal).toNat / 4 ^ i % 4 :=
    decodePalette_lane_toNat (packPal pal) ⟨i, hi⟩
  rw [hlane, packPal_toNat]
  obtain rfl | rfl | rfl | rfl : i = 0 ∨ i = 1 ∨ i = 2 ∨ i = 3 := by omega
  all_goals omega

theorem packPal_decodePalette (b : Byte) : packPal (decodePalette b) = b := by
  have hjoin (k n : Nat) : b.extractLsb' (k + 2) n ++ b.extractLsb' k 2 = b.extractLsb' k (n + 2) :=
    BitVec.extractLsb'_append_extractLsb'_eq_extractLsb' rfl
  have hall : b.extractLsb' 6 2 ++ b.extractLsb' 4 2 ++ b.extractLsb' 2 2 ++ b.extractLsb' 0 2 = b.extractLsb' 0 8 := by
    rw [hjoin 4, hjoin 2, hjoin 0]
  simp only [packPal, decodePalette_lane]
  exact hall.trans BitVec.extractLsb'_eq_self

/-! ### The laws and the command -/

/-- Settles O20: a lane is its two bits, which gives independence and the bound, and packing is the inverse on both sides. -/
theorem paletteLaneLaws : Obligations.PaletteLaneLaws := by
  refine ⟨fun b b' i hlow hhigh => ?independent, fun b i => ?bound, fun b b' heq => ?injective,
    fun pal => ⟨_, decodePalette_packPal pal⟩, packPal_decodePalette, decodePalette_lane_toNat⟩
  case independent =>
    rw [Fin.getElem_fin, Fin.getElem_fin, decodePalette_lane_bits b i.isLt, decodePalette_lane_bits b' i.isLt, hlow, hhigh]
  case bound => exact Nat.le_of_lt_succ (decodePalette b)[i].isLt
  case injective => rw [← packPal_decodePalette b, heq, packPal_decodePalette]

/-- Settles O21: the data are the packed palette, which is the operand. -/
theorem decpalAnswersItsByte : Obligations.DecpalAnswersItsByte := by
  intro b s hfault
  rw [execDecpal_run hfault, packPal_decodePalette]
  rfl

end Sys2Proof.Proofs
end

/-! PROOFS. The tile-row cache: what a lookup returns and fills, what drops the cache and how long an entry lives (O6, O27, O28, O29,
O30, O31), and that both line operations draw the rows a lookup gives, whatever the cache holds (O36). -/
section
namespace Sys2Proof.Proofs

open Sys2Proof Sys2Proof.Machine

/-! ### What a lookup returns -/

/-- On a miss the row given is the decoded bytes of now (R130). -/
theorem rowFor_of_invalid {rc : Memory (Option Row)} {t : Byte} {r : U3} {src : Src}
    (h : rc.read (cacheKey t r src) = none) (env : Env) :
    rowFor rc env t r src = decodeRow (env.rowOf t r src).lo (env.rowOf t r src).hi := by
  rw [rowFor, h, Option.getD_none]

/-- The row given is the stored one, or on a miss the decoded bytes of now (R130). -/
theorem rowFor_cases (rc : Memory (Option Row)) (env : Env) (t : Byte) (r : U3) (src : Src) :
    rc.read (cacheKey t r src) = some (rowFor rc env t r src) ∨ rc.read (cacheKey t r src) = none ∧
      rowFor rc env t r src = decodeRow (env.rowOf t r src).lo (env.rowOf t r src).hi := by
  cases h : rc.read (cacheKey t r src) with
  | some row => exact .inl (by rw [rowFor, h, Option.getD_some])
  | none => exact .inr ⟨rfl, rowFor_of_invalid h env⟩

/-- After a lookup its entry holds the row it returned. -/
theorem getRow_stores_fst (t : Byte) (r : U3) (src : Src) (s : State) :
    (getRow t r src s).2.rc.read (cacheKey t r src) = some (getRow t r src s).1 := by
  rw [getRow_rc_read, if_pos rfl, getRow_fst]

/-- A lookup touches no entry but its own: "there is no eviction and no replacement" (R130). -/
theorem getRow_rc_read_other {t : Byte} {r : U3} {src : Src} {k : Nat} (hk : k ≠ cacheKey t r src) (s : State) :
    (getRow t r src s).2.rc.read k = s.rc.read k := by
  rw [getRow_rc_read, if_neg hk]

/-- Settles O27: `getRow_hit` and `getRow_miss` are the two cases, and the write of the miss is read back. -/
theorem getRowHitsOrFills : Obligations.GetRowHitsOrFills := by
  intro t r src s
  simp only [← cacheKey_eq_keyIndex, ← rowOf_eq_rowBytes]
  refine ⟨fun row hhit => getRow_hit hhit, fun hmiss => ⟨_, getRow_miss hmiss, ?_, fun k hk => ?_⟩⟩
  · exact read_write_same ..
  · exact read_write_other hk ..

/-- Settles O28: the command is the lookup and the answer with its row; the row is classified by `rowFor_cases`. -/
theorem getrowAnswersTheRow : Obligations.GetrowAnswersTheRow := by
  intro tile r src s hf
  simp only [← cacheKey_eq_keyIndex, ← rowOf_eq_rowBytes]
  refine ⟨_, (getRow tile r src s).1, execGetrow_run hf tile r src, ?row, ?frame, getRow_stores_fst .., fun k hk => ?others⟩
  case row =>
    rw [getRow_fst]
    exact rowFor_cases ..
  case frame => exact congrArg (respond _) (getRow_frame tile r src s)
  case others => exact getRow_rc_read_other hk s

/-- Settles O29: the first lookup left its key valid, so the second hits, and a hit does not look at the environment. -/
theorem theSecondGetRowHits : Obligations.TheSecondGetRowHits := by
  intro t r src s env
  exact getRow_hit (s := { (getRow t r src s).2 with env := env }) (getRow_stores_fst t r src s)

/-! ### What drops the cache -/

/-- Settles O30: the cache `INVAL` leaves is empty, so every lookup after it misses. -/
theorem invalDropsEveryEntry : Obligations.InvalDropsEveryEntry := by
  intro s hf
  refine ⟨_, execInval_run hf, rfl, fun _ => rfl, fun tile r src => ?_, execInval_run (s := respond 0 (invalidate s)) hf⟩
  rw [getRow_fst, rowFor_of_invalid rfl, rowOf_eq_rowBytes]
  rfl

theorem decode_inval : decode 0x0400000000000000 = .ok .inval := decode_encode (i := .inval) rfl

/-- Settles O6: both steps take their item off the stream and run `INVAL`. -/
theorem aNotificationIsOneInval : Obligations.ANotificationIsOneInval := by
  intro s rest hp
  refine ⟨step_notify hp, ?_⟩
  rw [step_notify hp, step_command rfl, runWord_ok decode_inval]
  rfl

/-- Settles O31: an operation that is no `INVAL` only fills misses (`effect_cache`), a refusal and a change of the environment leave
the cache alone, and the other items are those that drop it. -/
theorem entriesLiveUntilTheCacheIsDropped : Obligations.EntriesLiveUntilTheCacheIsDropped := by
  intro s t k row hs h
  cases step_next h with
  | idle => exact .inl hs
  | refused => exact .inl hs
  | ran w i rest t hp hw _ heffect =>
    rcases effect_cache heffect with ⟨-, hkeeps, -⟩ | ⟨rfl, -⟩
    · exact .inl (hkeeps k row hs)
    · exact .inr ⟨_, rest, hp, decide_eq_true hw⟩
  | illegal => exact .inl hs
  | notified rest hp => exact .inr ⟨_, rest, hp, rfl⟩
  | collaborator => exact .inl hs
  | reset rest hp => exact .inr ⟨_, rest, hp, rfl⟩

/-! ### The rows the line operations draw -/

/-- The raw intensity a background column gets is that of the row `GetRow` gives for its tile (R155, R157). -/
theorem bgRawAt_eq_given (line : Nat) (s : State) (x : Nat) :
    bgRawAt line s x =
      rowPixel (Spec.rowGiven s (Spec.bgTile s.env line x) (Spec.bgTileRow s.env line) .bgsrc)
        (wrap s.env.scx (BitVec.ofNat 8 x)).within := by
  rw [bgRawAt, rowFor_eq_rowGiven]
  rfl

/-- The colour of an entry that draws is that of its raw intensity in the row `GetRow` gives (R181). -/
theorem spriteColour_eq_given {s : State} {line x n : Nat} (h : Machine.spriteDraws line s n x) :
    spriteColour line s (s.env.sprite n) x =
      colour (if (s.env.sprite n).attr.getLsbD 4 then s.env.obp1 else s.env.obp0)
        (Spec.spriteRawGiven s (s.env.sprite n) line x) := by
  obtain ⟨hon, hcov, -⟩ := h
  rw [spriteColour, spriteRawAt_eq_given s hon hcov]
  rfl

/-- Settles O36: `BgDone` and `PassDone` say what the two loops leave in every column, in terms of the rows `GetRow` gives before
the line, which filling misses on the way does not change. -/
theorem linesDrawTheRowsGetRowGives : Obligations.LinesDrawTheRowsGetRowGives := by
  refine ⟨fun line s hf h0 h1 => ?background, fun line s hf h0 h1 hen => ?sprites⟩
  case background =>
    obtain ⟨u, -, hexec, hdone⟩ := bgline_visible hf h0 h1
    refine ⟨_, hexec, fun x hx => ?_⟩
    rw [← bgRawAt_eq_given]
    exact ⟨hdone.raw x hx, hdone.bgs x hx⟩
  case sprites =>
    obtain ⟨u, -, hexec, hdone⟩ := sprline_visible hf h0 h1 hen
    refine ⟨_, hexec, fun x hx => ?_⟩
    simp only [← spriteDraws_iff_given]
    refine ⟨fun m hm hdraws hfirst => ?_, hdone.kept x hx, hdone.claim x hx⟩
    rw [← spriteColour_eq_given hdraws]
    exact hdone.drawn x hx m hm hdraws hfirst

end Sys2Proof.Proofs
end

/-! PROOFS. The scroll mapper: its formula, its laws, the tiles a line touches, and the command that answers a packed triple (O23,
O24, O25). -/
section
namespace Sys2Proof.Proofs

open Sys2Proof Sys2Proof.Machine

/-! ### The parts of a wrapped coordinate -/

theorem wrap_w_toNat (s o : Byte) : (wrap s o).w.toNat = (s.toNat + o.toNat) % 256 := BitVec.toNat_add ..

/-- `w[7:3]` as a number (R145). -/
theorem wrap_tile_toNat (s o : Byte) : (wrap s o).tile.toNat = (s.toNat + o.toNat) % 256 / 8 := by
  rw [wrap, BitVec.extractLsb'_toNat, BitVec.toNat_add, Nat.shiftRight_eq_div_pow]
  omega

/-- `w[2:0]` as a number (R145). -/
theorem wrap_within_toNat (s o : Byte) : (wrap s o).within.toNat = (s.toNat + o.toNat) % 256 % 8 := by
  rw [wrap, BitVec.extractLsb'_toNat, BitVec.toNat_add, Nat.shiftRight_zero]

/-- The triple depends on the operands through their sum modulo 256 only. -/
theorem wrap_congr {s o s' o' : Byte} (h : s + o = s' + o') : wrap s o = wrap s' o' := by
  rw [wrap, wrap, h]

/-- Settles O23: `w` is the sum of bytes, `tile` and `within` are its slices, and a number is its quotient and remainder by 8. -/
theorem wrapFormula : Obligations.WrapFormula := by
  intro s o
  refine ⟨wrap_w_toNat s o, wrap_tile_toNat s o, wrap_within_toNat s o, ?_⟩
  rw [wrap_w_toNat, wrap_tile_toNat, wrap_within_toNat, Nat.div_add_mod]

/-! ### One step of the offset -/

/-- Law 5 of R148: at the seam the triple is that of 255, and one pixel on that of 0. -/
theorem wrap_seam {s o : Byte} (h : (wrap s o).w = 255) : wrap s o = wrap 255 0 ∧ wrap s (o + 1) = wrap 0 0 := by
  have hsum : s + o = 255 := h
  exact ⟨wrap_congr hsum, wrap_congr (by rw [← BitVec.add_assoc, hsum]; rfl)⟩

theorem toNat_add_one {n : Nat} (x : BitVec n) : (x + 1).toNat = (x.toNat + 1) % 2 ^ n := by
  rw [BitVec.toNat_add, BitVec.ofNat_eq_ofNat, BitVec.toNat_ofNat, Nat.add_mod_mod]

theorem wrap_succ_within (s o : Byte) : (wrap s (o + 1)).within = (wrap s o).within + 1 := by
  apply BitVec.eq_of_toNat_eq
  rw [toNat_add_one, wrap_within_toNat, wrap_within_toNat, toNat_add_one]
  omega

/-- Law 6 of R148: the tile steps exactly when `within` passes from 7 to 0. -/
theorem wrap_succ_tile (s o : Byte) :
    (wrap s (o + 1)).tile = if (wrap s o).within = 7 then (wrap s o).tile + 1 else (wrap s o).tile := by
  have hlast : (wrap s o).within = 7 ↔ (s.toNat + o.toNat) % 256 % 8 = 7 := by
    rw [← BitVec.toNat_inj, wrap_within_toNat]; rfl
  apply BitVec.eq_of_toNat_eq
  rw [wrap_tile_toNat, toNat_add_one]
  simp only [hlast]
  split
  · rw [toNat_add_one, wrap_tile_toNat]
    omega
  · rw [wrap_tile_toNat]
    omega

/-! ### The tiles of a line -/

/-- The tile of column `x`, counted on the torus from the tile of column 0. -/
theorem wrap_tile_column (scx : Byte) (x : Nat) :
    (wrap scx (BitVec.ofNat 8 x)).tile = BitVec.ofNat 5 (scx.toNat / 8 + (scx.toNat % 8 + x) / 8) := by
  apply BitVec.eq_of_toNat_eq
  rw [wrap_tile_toNat, BitVec.toNat_ofNat, BitVec.toNat_ofNat]
  omega

/-- The columns of a line touch consecutive tiles, from that of column 0 to that of column 159. -/
theorem lineTiles_eq_image (scx : Byte) :
    ((List.range 160).map fun x => (wrap scx (BitVec.ofNat 8 x)).tile).toFinset =
      (Finset.range ((scx.toNat % 8 + 159) / 8 + 1)).image fun j => BitVec.ofNat 5 (scx.toNat / 8 + j) := by
  ext tile
  simp only [List.mem_toFinset, List.mem_map, List.mem_range, Finset.mem_image, Finset.mem_range, wrap_tile_column]
  constructor
  · rintro ⟨x, hx, rfl⟩
    exact ⟨(scx.toNat % 8 + x) / 8, by omega, rfl⟩
  · rintro ⟨j, hj, rfl⟩
    have hcolumn : (scx.toNat % 8 + (8 * j - scx.toNat % 8)) / 8 = j := by omega
    exact ⟨8 * j - scx.toNat % 8, by omega, by rw [hcolumn]⟩

/-- Fewer than 32 consecutive tiles are distinct on the torus. -/
theorem consecutiveTiles_injOn (first : Nat) {n : Nat} (hn : n ≤ 32) :
    Set.InjOn (fun j => BitVec.ofNat 5 (first + j)) (Finset.range n : Set Nat) := by
  intro i hi j hj heq
  rw [Finset.mem_coe, Finset.mem_range] at hi hj
  have hnum := congrArg BitVec.toNat heq
  simp only [BitVec.toNat_ofNat] at hnum
  omega

/-- Law 7 of R148. -/
theorem card_lineTiles (scx : Byte) :
    ((List.range 160).map fun x => (wrap scx (BitVec.ofNat 8 x)).tile).toFinset.card =
      if scx.toNat % 8 = 0 then 20 else 21 := by
  rw [lineTiles_eq_image, Finset.card_image_of_injOn (consecutiveTiles_injOn _ (by omega)), Finset.card_range]
  split <;> omega

/-- Settles O24: the triple depends on the sum only, which gives symmetry, periodicity and the seam; a step of the offset and the
tiles of a line are counted above. -/
theorem wrapLaws : Obligations.WrapLaws := by
  refine ⟨wrap_w_toNat, fun s o => wrap_congr (BitVec.add_comm s o), fun b => ⟨BitVec.zero_add b, BitVec.add_zero b⟩,
    fun s o d => wrap_congr (add_add_sub_cancel s o d).symm, fun s o h => ?seam,
    fun s o => ⟨wrap_succ_within s o, wrap_succ_tile s o⟩, card_lineTiles⟩
  case seam =>
    obtain ⟨hlast, hfirst⟩ := wrap_seam h
    rw [hlast, hfirst]
    decide

/-! ### The command -/

/-- A packed triple as a number (R87). -/
theorem packWrap_toNat (r : Wrapped) : (packWrap r).toNat = r.w.toNat + 256 * r.tile.toNat + 8192 * r.within.toNat := by
  simp only [packWrap, toNat_append_eq_add]
  omega

/-- Settles O25: the data are the packed triple, whose parts are those of the formula. -/
theorem wrapAnswersTheTriple : Obligations.WrapAnswersTheTriple := by
  intro scroll offset s hfault
  refine ⟨packWrap (wrap scroll offset), execWrap_run hfault scroll offset, ?_⟩
  rw [packWrap_toNat, wrap_w_toNat, wrap_tile_toNat, wrap_within_toNat, Nat.mod_mod_of_dvd _ (by decide)]

end Sys2Proof.Proofs
end

/-! PROOFS. The background line renderer (O33, O34, O35, O38, O39), and the cache entries both line operations fill (O37). -/
section
namespace Sys2Proof.Proofs

open Sys2Proof Sys2Proof.Machine

/-! ### `BGLINE` off the screen -/

/-- Settles O33: the operation answers and does nothing else (`bgline_offScreen`); the word is decoded. -/
theorem bglineOffScreenIsANoOp : Obligations.BglineOffScreenIsANoOp :=
  ⟨fun _ _ hf hline => bgline_offScreen hf hline, by decide⟩

/-! ### What `BGLINE` leaves alone -/

/-- The operation's next state is the drawn line, answered. -/
theorem exec_bgline_visible {s t : State} {line : Int} (hf : s.fault = false) (h0 : 0 ≤ line) (h1 : line < 144)
    (h : exec (.bgline line) s = .next t) :
    ∃ u, renderBgLine line.toNat s = u ∧ t = respond 0 u ∧ BgDone line.toNat s 160 u := by
  obtain ⟨u, hu, hexec, hdone⟩ := bgline_visible hf h0 h1
  rw [hexec] at h
  cases h
  exact ⟨u, hu, rfl, hdone⟩

/-- An address below or above a row is no pixel of the row (R12). -/
theorem ne_pixAddr_of_outside_row {a line : Nat} (ha : a < line * 160 ∨ line * 160 + 160 ≤ a) :
    ∀ x < 160, a ≠ pixAddr x line := by
  intro x hx
  rw [pixAddr_eq]
  omega

theorem cacheGrows_read_of_valid {s t : State} (h : cacheGrows s t) {k : Nat} (hk : s.rc.read k ≠ none) :
    t.rc.read k = s.rc.read k := by
  obtain ⟨row, hrow⟩ := Option.ne_none_iff_exists'.mp hk
  obtain ⟨-, hkeeps, -⟩ := h
  rw [hrow, hkeeps k row hrow]

/-- The background rows have the lower half of the cache (R132). -/
theorem cacheKey_bgsrc_lt (t : Byte) (r : U3) : cacheKey t r .bgsrc < 2048 := by
  have ht := t.isLt
  have hr := r.isLt
  rw [cacheKey_eq_keyIndex, Spec.keyIndex]
  omega

/-- The column loop fills background entries only. -/
theorem bgDone_rc_upper {line n k : Nat} {s t : State} (h : BgDone line s n t) (hk : 2048 ≤ k) :
    t.rc.read k = s.rc.read k := by
  by_cases hs : s.rc.read k = none
  · by_contra hne
    obtain ⟨x, -, hkey⟩ := h.only k hs (hs ▸ hne)
    have hlt := cacheKey_bgsrc_lt (bgTileAt line s.env x) (wrap s.env.scy (BitVec.ofNat 8 line)).within
    omega
  · exact cacheGrows_read_of_valid h.grows hs

/-- Settles O34: `BgDone` bounds what the loop writes; a valid entry is kept because the cache only grows, a sprite entry because
no column has its key. -/
theorem bglineFrame : Obligations.BglineFrame := by
  intro line s hf h0 h1
  obtain ⟨u, -, hexec, hdone⟩ := bgline_visible hf h0 h1
  refine ⟨_, hexec, congrArg (respond 0) hdone.frame, fun a ha => ?_, fun k hk => ?_⟩
  · have houtside := ne_pixAddr_of_outside_row ha
    exact ⟨hdone.bgsElse a houtside, hdone.rawElse a houtside⟩
  · rw [respond_rc]
    exact hk.elim (cacheGrows_read_of_valid hdone.grows) (bgDone_rc_upper hdone)

/-! ### The closed form of a pixel -/

theorem wrap_tile_ofNat (scroll : Byte) {n : Nat} (hn : n < 256) :
    (wrap scroll (BitVec.ofNat 8 n)).tile = BitVec.ofNat 5 ((scroll.toNat + n) % 256 / 8) := by
  apply BitVec.eq_of_toNat_eq
  rw [wrap_tile_toNat, BitVec.toNat_ofNat, BitVec.toNat_ofNat, Nat.mod_eq_of_lt hn]
  omega

theorem wrap_within_ofNat (scroll : Byte) {n : Nat} (hn : n < 256) :
    (wrap scroll (BitVec.ofNat 8 n)).within = BitVec.ofNat 3 ((scroll.toNat + n) % 256 % 8) := by
  apply BitVec.eq_of_toNat_eq
  rw [wrap_within_toNat, BitVec.toNat_ofNat, BitVec.toNat_ofNat, Nat.mod_eq_of_lt hn]
  omega

/-- With a coherent cache the raw intensity of a column is that of the plane bytes of now (R64, R163). -/
theorem bgRawAt_of_coherent {s : State} (hc : s.coherent) (line x : Nat) :
    (bgRawAt line s x).toNat = Spec.planeBits (s.env.bgRow (Spec.bgTile s.env line x) (Spec.bgTileRow s.env line))
      (7 - (wrap s.env.scx (BitVec.ofNat 8 x)).within.toNat) := by
  rw [bgRawAt_eq_given, rowGiven_of_coherent hc, rowPixel_decodeRow_toNat]
  rfl

/-- Settles O35: the column gets the raw intensity `bgRawAt` and its colour (`BgDone`), which a coherent cache makes the plane bits
of now; the tile, the row and the column within it are the quotients and remainders of the wrapped coordinates. -/
theorem bglinePixelFormula : Obligations.BglinePixelFormula := by
  intro line s hf hc h0 h1
  obtain ⟨u, -, hexec, hdone⟩ := bgline_visible hf h0 h1
  refine ⟨_, hexec, fun x hx => ?_⟩
  have hx256 : x < 256 := by omega
  have hline256 : line.toNat < 256 := by omega
  have hraw := bgRawAt_of_coherent hc line.toNat x
  rw [Spec.bgTile, Spec.bgTileRow, wrap_tile_ofNat _ hx256, wrap_tile_ofNat _ hline256, wrap_within_ofNat _ hline256,
    wrap_within_toNat, BitVec.toNat_ofNat, Nat.mod_eq_of_lt hx256] at hraw
  have hpixel := hdone.bgs x hx
  rw [colour_eq, hraw] at hpixel
  exact ⟨(congrArg BitVec.toNat (hdone.raw x hx)).trans hraw, hpixel⟩

/-! ### The entries a line fills -/

/-- A cache that only grows, and only by the keys used, all of which end valid. -/
theorem valid_iff_of_uses {s t : State} {uses : Nat → Prop} (hgrows : cacheGrows s t)
    (hvalid : ∀ k, uses k → t.rc.read k ≠ none) (honly : ∀ k, s.rc.read k = none → t.rc.read k ≠ none → uses k) (k : Nat) :
    t.rc.read k ≠ none ↔ s.rc.read k ≠ none ∨ uses k := by
  constructor
  · intro ht
    by_cases hs : s.rc.read k = none
    · exact .inr (honly k hs ht)
    · exact .inl hs
  · rintro (hs | huse)
    · rwa [cacheGrows_read_of_valid hgrows hs]
    · exact hvalid k huse

/-- The keys the column loop uses, in the words of the rules (R157). -/
theorem bgDone_valid_iff {line n : Nat} {s t : State} (h : BgDone line s n t) (k : Nat) :
    t.rc.read k ≠ none ↔ s.rc.read k ≠ none ∨
      ∃ x < n, k = Spec.keyIndex (Spec.bgTile s.env line x) (Spec.bgTileRow s.env line) .bgsrc := by
  simp only [← cacheKey_eq_keyIndex]
  refine valid_iff_of_uses h.grows ?_ h.only k
  rintro _ ⟨x, hx, rfl⟩
  exact h.valid x hx

/-- The keys the sprite pass uses, in the words of the rules: the row of every entry on the line is fetched before any of its
columns is examined (R174, R175, R176). -/
theorem passDone_valid_iff {line n : Nat} {s t : State} (h : PassDone line s n t) (k : Nat) :
    t.rc.read k ≠ none ↔ s.rc.read k ≠ none ∨ ∃ m < n, spriteOnLine line (s.env.sprite m) = true ∧
      k = Spec.keyIndex (s.env.sprite m).tile (Spec.spriteRow (s.env.sprite m) line) .sprsrc := by
  have hvalid : ∀ k, (∃ m < n, spriteOnLine line (s.env.sprite m) = true ∧
      k = cacheKey (s.env.sprite m).tile (spriteRowInTile line (s.env.sprite m)) .sprsrc) → t.rc.read k ≠ none := by
    rintro _ ⟨m, hm, hon, rfl⟩
    exact h.valid m hm hon
  rw [valid_iff_of_uses h.grows hvalid h.only k]
  refine or_congr_right (exists_congr fun m => and_congr_right fun _ => and_congr_right fun hon => ?_)
  rw [spriteRow_eq hon, cacheKey_eq_keyIndex]

/-- Settles O37: `BgDone` and `PassDone` name the keys each loop uses, and all of them end valid. -/
theorem linesFillTheRowsTheyMeet : Obligations.LinesFillTheRowsTheyMeet := by
  refine ⟨fun line s t hf h0 h1 h k => ?background, fun line s t hf h0 h1 hen h k => ?sprites⟩
  case background =>
    obtain ⟨u, -, rfl, hdone⟩ := exec_bgline_visible hf h0 h1 h
    exact bgDone_valid_iff hdone k
  case sprites =>
    obtain ⟨u, -, rfl, hdone⟩ := exec_sprline_visible hf h0 h1 hen h
    have hiff := passDone_valid_iff hdone k
    simp only [spriteOnLine_iff, Int.toNat_of_nonneg h0, and_assoc] at hiff
    exact hiff

/-! ### The same line twice -/

section
variable {line n : Nat} {s t : State} (h : BgDone line s n t) (d : BitVec 32)
include h

theorem bgDone_fault : t.fault = s.fault := by rw [h.frame]

/-- The state after a line has the raw intensities it was drawn with: filling misses does not change what `GetRow` gives (R133). -/
theorem bgRawAt_respond_of_bgDone (x : Nat) : bgRawAt line (respond d t) x = bgRawAt line s x := by
  rw [bgRawAt, respond_rc, respond_env, bgDone_env h, cacheGrows_rowFor h.grows, bgRawAt]

/-- A second run of the column loop, from the answered state, leaves the same pixels and raw intensities. -/
theorem bgDone_twice {u : State} (h' : BgDone line (respond d t) n u) (a : Nat) :
    u.bgs.read a = t.bgs.read a ∧ u.raw.read a = t.raw.read a := by
  by_cases ha : ∃ x < n, a = pixAddr x line
  · obtain ⟨x, hx, rfl⟩ := ha
    rw [h'.bgs x hx, h'.raw x hx, bgRawAt_respond_of_bgDone h, respond_env, bgDone_env h, h.bgs x hx, h.raw x hx]
    exact ⟨rfl, rfl⟩
  · have houtside : ∀ x < n, a ≠ pixAddr x line := fun x hx heq => ha ⟨x, hx, heq⟩
    exact ⟨h'.bgsElse a houtside, h'.rawElse a houtside⟩

end

/-- The first run cached every row of the line, so the second fills nothing. -/
theorem renderBgLine_respond_rc_of_bgDone {line : Nat} {s t : State} (h : BgDone line s 160 t) (d : BitVec 32) :
    (renderBgLine line (respond d t)).rc = t.rc := by
  refine renderBgLine_rc_of_valid (s := respond d t) fun x hx => ?_
  rw [respond_rc, respond_env, bgDone_env h]
  exact h.valid x hx

/-- Settles O38: off the screen neither run changes anything; on the screen the second starts where the first left its line
(`bgDone_twice`) and its rows (`renderBgLine_respond_rc_of_bgDone`). -/
theorem bglineIsIdempotent : Obligations.BglineIsIdempotent := by
  intro line s t u hf h h'
  by_cases hline : line < 0 ∨ 144 ≤ line
  case pos =>
    rw [bgline_offScreen hf hline] at h
    cases h
    rw [bgline_offScreen (s := respond 0 s) hf hline] at h'
    cases h'
    exact ⟨fun _ => ⟨rfl, rfl⟩, rfl⟩
  case neg =>
    obtain ⟨h0, h1⟩ : 0 ≤ line ∧ line < 144 := by omega
    obtain ⟨v, -, rfl, hfirst⟩ := exec_bgline_visible hf h0 h1 h
    have hf' : (respond 0 v).fault = false := (bgDone_fault hfirst).trans hf
    obtain ⟨w, hw, rfl, hsecond⟩ := exec_bgline_visible hf' h0 h1 h'
    have hrc : w.rc = v.rc := by rw [← hw, renderBgLine_respond_rc_of_bgDone hfirst]
    exact ⟨bgDone_twice (u := w) hfirst 0 hsecond, hrc⟩

/-! ### What a line reads -/

/-- The two environments agree on what the column loop reads (R155, R156). -/
structure SameBgInputs (e' e : Env) : Prop where
  scx : e'.scx = e.scx
  scy : e'.scy = e.scy
  bgp : e'.bgp = e.bgp
  tileMap : e'.tileMap = e.tileMap
  bgRows : e'.bgRows = e.bgRows

section
variable {e' e : Env} (h : SameBgInputs e' e)
include h

theorem bgLine_eq_of_sameBgInputs (line : Nat) : bgLine line e' = bgLine line e := by
  rw [bgLine, h.scx, h.scy, h.bgp, bgLine]

theorem tileAt_eq_of_sameBgInputs (gx gy : U5) : e'.tileAt gx gy = e.tileAt gx gy := by
  rw [Env.tileAt, h.tileMap, Env.tileAt]

theorem rowOf_bgsrc_eq_of_sameBgInputs (t : Byte) (r : U3) : e'.rowOf t r .bgsrc = e.rowOf t r .bgsrc := by
  rw [Env.rowOf, Env.bgRow, h.bgRows, Env.rowOf, Env.bgRow]

theorem bgTileAt_eq_of_sameBgInputs (line x : Nat) : bgTileAt line e' x = bgTileAt line e x := by
  rw [bgTileAt, h.scx, h.scy, tileAt_eq_of_sameBgInputs h, bgTileAt]

end

section
variable {s' s : State} (hrc : s'.rc = s.rc) (henv : SameBgInputs s'.env s.env)
include hrc henv

theorem bgRawAt_eq_of_sameBgInputs (line x : Nat) : bgRawAt line s' x = bgRawAt line s x := by
  rw [bgRawAt, rowFor, hrc, rowOf_bgsrc_eq_of_sameBgInputs henv, bgTileAt_eq_of_sameBgInputs henv, henv.scx, henv.scy]
  rfl

/-- A lookup of a background row fills alike. -/
theorem getRow_bgsrc_rc_eq (t : Byte) (r : U3) : (getRow t r .bgsrc s').2.rc = (getRow t r .bgsrc s).2.rc := by
  cases h : s.rc.read (cacheKey t r .bgsrc) with
  | some row => rw [getRow_hit h, getRow_hit (hrc ▸ h), hrc]
  | none =>
    rw [getRow_miss h, getRow_miss (hrc ▸ h), rowOf_bgsrc_eq_of_sameBgInputs henv, fillCache_rc, fillCache_rc, hrc]

theorem bgColumn_rc_eq (p : BgLine) (x : Nat) : (bgColumn p s' x).rc = (bgColumn p s x).rc := by
  simp only [bgColumn, writePixel_rc, writeRaw_rc, tileAt_eq_of_sameBgInputs henv]
  exact getRow_bgsrc_rc_eq hrc henv ..

/-- The two column loops run side by side fill alike. -/
theorem renderBgLine_rc_eq (line : Nat) : (renderBgLine line s').rc = (renderBgLine line s).rc := by
  have hloops := foldl_range_rel (N := Config.screenW)
    (fun a b : State => b.rc = a.rc ∧ SameBgInputs b.env a.env) (bgColumn (bgLine line s.env)) (bgColumn (bgLine line s.env))
    (s := s) (t := s') ⟨hrc, henv⟩ fun n a b _ ⟨hab, hin⟩ => by
      refine ⟨bgColumn_rc_eq hab hin _ n, ?_⟩
      rw [bgColumn_frame, bgColumn_frame (s := a)]
      exact hin
  rw [renderBgLine, bgLine_eq_of_sameBgInputs henv]
  exact hloops.1

end

/-- Settles O39: the two loops run side by side fill alike, and each draws the raw intensities and colours `BgDone` names, which
depend on the inputs only. -/
theorem bglineReadsOnlyItsInputs : Obligations.BglineReadsOnlyItsInputs := by
  intro line s s' t t' hf hf' hrc hscx hscy hbgp htileMap hbgRows h0 h1 h h'
  have hin : SameBgInputs s'.env s.env := ⟨hscx, hscy, hbgp, htileMap, hbgRows⟩
  obtain ⟨u, hu, rfl, hdone⟩ := exec_bgline_visible hf h0 h1 h
  obtain ⟨u', hu', rfl, hdone'⟩ := exec_bgline_visible hf' h0 h1 h'
  have hfill : u'.rc = u.rc := by rw [← hu', ← hu, renderBgLine_rc_eq hrc hin]
  have hraw (x : Nat) : bgRawAt line.toNat s' x = bgRawAt line.toNat s x := bgRawAt_eq_of_sameBgInputs hrc hin _ x
  refine ⟨hfill, fun x hx => ⟨?_, ?_⟩⟩
  · exact (hdone'.raw x hx).trans ((hraw x).trans (hdone.raw x hx).symm)
  · refine (hdone'.bgs x hx).trans (Eq.trans ?_ (hdone.bgs x hx).symm)
    rw [hraw, hbgp]

end Sys2Proof.Proofs
end

/-! PROOFS. The sprite line renderer (O40, O41, O42, O43, O45). -/
section
namespace Sys2Proof.Proofs

open Sys2Proof Sys2Proof.Machine

/-! ### `SPRLINE` off the screen -/

/-- Settles O40: the operation answers and does nothing else, before it looks at the sprite enable (`sprline_offScreen`). -/
theorem sprlineOffScreenIsANoOp : Obligations.SprlineOffScreenIsANoOp :=
  fun _ _ hf hline => sprline_offScreen hf hline

/-! ### What `SPRLINE` erases -/

/-- A pass erases no pixel: what it writes are shades (R25, R181). -/
theorem passDone_sps_ne_zero {line n : Nat} {s t : State} (h : PassDone line s n t) {a : Nat}
    (hne : t.sps.read a ≠ s.sps.read a) : t.sps.read a ≠ 0 := by
  obtain ⟨i, hi⟩ := (passDone_sps_cases h a).resolve_left hne
  rw [hi]
  exact shade_ne_zero i

/-- Settles O41: `RowCleared` says what the disabled branch leaves, and a pass erases nothing (`passDone_sps_ne_zero`). -/
theorem disabledSpritesClearTheRow : Obligations.DisabledSpritesClearTheRow := by
  intro line s hf h0 h1
  refine ⟨fun hen => ?disabled, fun hen => ?enabled⟩
  case disabled =>
    obtain ⟨u, -, hexec, hdone⟩ := sprline_disabled hf h0 h1 hen
    exact ⟨_, hexec, congrArg (respond 0) hdone.frame, hdone.cleared,
      fun a ha => hdone.else_ a (ne_pixAddr_of_outside_row ha)⟩
  case enabled =>
    obtain ⟨u, -, hexec, hdone⟩ := sprline_visible hf h0 h1 hen
    exact ⟨_, hexec, fun a hne => passDone_sps_ne_zero hdone hne⟩

/-! ### What a pass leaves alone -/

/-- The sprite rows have the upper half of the cache (R132). -/
theorem le_cacheKey_sprsrc (t : Byte) (r : U3) : 2048 ≤ cacheKey t r .sprsrc := by
  rw [cacheKey_eq_keyIndex, Spec.keyIndex]
  omega

/-- A pass fills sprite entries only. -/
theorem passDone_rc_lower {line n k : Nat} {s t : State} (h : PassDone line s n t) (hk : k < 2048) :
    t.rc.read k = s.rc.read k := by
  by_cases hs : s.rc.read k = none
  · by_contra hne
    obtain ⟨m, -, -, hkey⟩ := h.only k hs (hs ▸ hne)
    have hle := le_cacheKey_sprsrc (s.env.sprite m).tile (spriteRowInTile line (s.env.sprite m))
    omega
  · exact cacheGrows_read_of_valid h.grows hs

/-- Settles O42: `PassDone` bounds what the pass writes; a valid entry is kept because the cache only grows, a background entry
because no table entry has its key. -/
theorem sprlineFrame : Obligations.SprlineFrame := by
  intro line s hf h0 h1 hen
  obtain ⟨u, -, hexec, hdone⟩ := sprline_visible hf h0 h1 hen
  refine ⟨_, hexec, congrArg (respond 0) hdone.frame, fun a ha => hdone.else_ a (ne_pixAddr_of_outside_row ha),
    passDone_sps_cases (t := u) hdone, fun k hk => ?_⟩
  rw [respond_rc]
  exact hk.elim (cacheGrows_read_of_valid hdone.grows) (passDone_rc_lower hdone)

/-! ### The closed form of a pixel -/

/-- With a coherent cache the pass draws an entry exactly where R185 says so. -/
theorem spriteDraws_iff_of_coherent {s : State} (hc : s.coherent) (line x n : Nat) :
    Machine.spriteDraws line s n x ↔ Spec.spriteDraws s line x n :=
  (spriteDraws_iff_given ..).trans (spriteDrawsGiven_iff_of_coherent hc ..)

/-- With a coherent cache the colour of an entry that draws is the shade its palette register names for the plane bits of now
(R64, R185). -/
theorem spriteColour_of_coherent {s : State} (hc : s.coherent) {line x n : Nat} (h : Machine.spriteDraws line s n x) :
    spriteColour line s (s.env.sprite n) x =
      shade ((if (s.env.sprite n).attr.getLsbD 4 then s.env.obp1 else s.env.obp0).extractLsb'
        (2 * Spec.spriteRaw s.env (s.env.sprite n) line x) 2) := by
  have ⟨_, hcov, _⟩ := h
  rw [spriteColour_eq_given h, colour_eq, spriteRawGiven_of_coherent hc hcov]

/-- Settles O43: the least entry that draws gives the column its colour, and a column without one keeps its pixel (`PassDone`); a
coherent cache makes both R185's. -/
theorem sprlinePixelFormula : Obligations.SprlinePixelFormula := by
  intro line s hf hc h0 h1 hen
  obtain ⟨u, -, hexec, hdone⟩ := sprline_visible hf h0 h1 hen
  refine ⟨_, hexec, fun x hx => ?_⟩
  simp only [← spriteDraws_iff_of_coherent hc]
  refine ⟨fun m hm hdraws hfirst => ?_, hdone.kept x hx⟩
  rw [← spriteColour_of_coherent hc hdraws]
  exact hdone.drawn x hx m hm hdraws hfirst

/-! ### The same line twice -/

/-- A column has a least entry that draws there, or none. -/
theorem spriteDraws_first_or_none (line : Nat) (s : State) (n x : Nat) :
    (∃ m < n, Machine.spriteDraws line s m x ∧ ∀ k < m, ¬Machine.spriteDraws line s k x) ∨
      ∀ m < n, ¬Machine.spriteDraws line s m x := by
  classical
  by_cases hdraws : ∃ m, Machine.spriteDraws line s m x
  · rcases lt_or_ge (Nat.find hdraws) n with hlt | hge
    · exact .inl ⟨_, hlt, Nat.find_spec hdraws, fun k => Nat.find_min hdraws⟩
    · exact .inr fun m hm => Nat.find_min hdraws (hm.trans_le hge)
  · exact .inr fun m _ hm => hdraws ⟨m, hm⟩

section
variable {line n : Nat} {s t : State} (h : PassDone line s n t) (d : BitVec 32)
include h

theorem passDone_env : t.env = s.env := by rw [h.frame]
theorem passDone_raw : t.raw = s.raw := by rw [h.frame]
theorem passDone_fault : t.fault = s.fault := by rw [h.frame]

/-- The state after a pass has the raw intensities the pass drew with: filling misses does not change what `GetRow` gives (R133). -/
theorem spriteRawAt_respond_of_passDone (e : SpriteEntry) (c : U3) :
    spriteRawAt line (respond d t) e c = spriteRawAt line s e c := by
  rw [spriteRawAt, respond_rc, respond_env, passDone_env h, cacheGrows_rowFor h.grows, spriteRawAt]

/-- A pass does not change which entries draw: it writes neither `RAW` nor `Env`. -/
theorem spriteDraws_respond_of_passDone (m x : Nat) :
    Machine.spriteDraws line (respond d t) m x ↔ Machine.spriteDraws line s m x := by
  rw [Machine.spriteDraws, spriteWins, spriteRawAt_respond_of_passDone h, respond_env, respond_raw, passDone_env h,
    passDone_raw h, Machine.spriteDraws, spriteWins]

theorem spriteColour_respond_of_passDone (e : SpriteEntry) (x : Nat) :
    spriteColour line (respond d t) e x = spriteColour line s e x := by
  rw [spriteColour, spriteRawAt_respond_of_passDone h, respond_env, passDone_env h, spriteColour]

/-- A second pass, from the answered state, leaves the same pixels: where an entry draws it draws again, and elsewhere neither pass
does. -/
theorem passDone_twice_sps {u : State} (h' : PassDone line (respond d t) n u) (a : Nat) : u.sps.read a = t.sps.read a := by
  by_cases ha : ∃ x < 160, a = pixAddr x line
  · obtain ⟨x, hx, rfl⟩ := ha
    rcases spriteDraws_first_or_none line (respond d t) n x with ⟨m, hm, hdraws, hfirst⟩ | hnone
    · rw [h'.drawn x hx m hm hdraws hfirst, spriteColour_respond_of_passDone h, respond_env, passDone_env h]
      simp only [spriteDraws_respond_of_passDone h] at hdraws hfirst
      exact (h.drawn x hx m hm hdraws hfirst).symm
    · exact h'.kept x hx hnone
  · exact h'.else_ a fun x hx heq => ha ⟨x, hx, heq⟩

/-- A second pass claims the same columns: it clears `CLAIM` first (R173), and the same entries draw. -/
theorem passDone_twice_claim {u : State} (h' : PassDone line (respond d t) n u) {x : Nat} (hx : x < 160) :
    u.claim.read x = t.claim.read x := by
  rw [Bool.eq_iff_iff, h'.claim x hx, h.claim x hx]
  simp only [spriteDraws_respond_of_passDone h]

end

/-- The first pass cached the row of every entry on the line, so the second fills nothing. -/
theorem renderSprites_respond_rc_of_passDone {line : Nat} {s t : State} (h : PassDone line s 40 t) (d : BitVec 32) :
    (renderSprites line (respond d t)).rc = t.rc := by
  refine renderSprites_rc_of_valid (s := respond d t) fun m hm hon => ?_
  rw [respond_env, passDone_env h] at hon ⊢
  exact h.valid m hm hon

/-- A second row clear, from the answered state, finds the row transparent. -/
theorem rowCleared_twice {line n : Nat} {s t u : State} (h : RowCleared line s n t) {d : BitVec 32}
    (h' : RowCleared line (respond d t) n u) (a : Nat) : u.sps.read a = t.sps.read a := by
  by_cases ha : ∃ x < n, a = pixAddr x line
  · obtain ⟨x, hx, rfl⟩ := ha
    rw [h'.cleared x hx, h.cleared x hx]
  · exact h'.else_ a fun x hx heq => ha ⟨x, hx, heq⟩

/-- The operation's next state with sprites disabled is the row clear, answered. -/
theorem exec_sprline_disabled {s t : State} {line : Int} (hf : s.fault = false) (h0 : 0 ≤ line) (h1 : line < 144)
    (hen : s.env.spritesEnabled = false) (h : exec (.sprline line) s = .next t) :
    ∃ u, t = respond 0 u ∧ RowCleared line.toNat s 160 u := by
  obtain ⟨u, -, hexec, hdone⟩ := sprline_disabled hf h0 h1 hen
  rw [hexec] at h
  cases h
  exact ⟨u, rfl, hdone⟩

/-- Settles O45: off the screen neither run changes anything; with sprites disabled the second run clears a clear row
(`rowCleared_twice`); with sprites enabled it draws what the first drew (`passDone_twice_sps`, `passDone_twice_claim`) from rows
the first has cached (`renderSprites_respond_rc_of_passDone`). -/
theorem sprlineIsIdempotent : Obligations.SprlineIsIdempotent := by
  intro line s t u hf h h'
  by_cases hline : line < 0 ∨ 144 ≤ line
  case pos =>
    rw [sprline_offScreen hf hline] at h
    cases h
    rw [sprline_offScreen (s := respond 0 s) hf hline] at h'
    cases h'
    exact ⟨fun _ => rfl, fun _ _ => rfl, rfl⟩
  case neg =>
    obtain ⟨h0, h1⟩ : 0 ≤ line ∧ line < 144 := by omega
    cases hen : s.env.spritesEnabled with
    | false =>
      obtain ⟨v, rfl, hfirst⟩ := exec_sprline_disabled hf h0 h1 hen h
      have hf' : (respond 0 v).fault = false := by rw [respond_fault, hfirst.frame, hf]
      have hen' : (respond 0 v).env.spritesEnabled = false := by rw [respond_env, hfirst.frame, hen]
      obtain ⟨w, rfl, hsecond⟩ := exec_sprline_disabled hf' h0 h1 hen' h'
      have hclaim : w.claim = v.claim := by rw [hsecond.frame, respond_claim]
      have hrc : w.rc = v.rc := by rw [hsecond.frame, respond_rc]
      exact ⟨rowCleared_twice (t := v) (u := w) hfirst hsecond, fun x _ => congrArg (Memory.read · x) hclaim, hrc⟩
    | true =>
      obtain ⟨v, -, rfl, hfirst⟩ := exec_sprline_visible hf h0 h1 hen h
      have hf' : (respond 0 v).fault = false := (passDone_fault hfirst).trans hf
      have hen' : (respond 0 v).env.spritesEnabled = true := by rw [respond_env, passDone_env hfirst, hen]
      obtain ⟨w, hw, rfl, hsecond⟩ := exec_sprline_visible hf' h0 h1 hen' h'
      have hrc : w.rc = v.rc := by rw [← hw, renderSprites_respond_rc_of_passDone hfirst]
      exact ⟨passDone_twice_sps (u := w) hfirst 0 hsecond, fun x hx => passDone_twice_claim (u := w) hfirst 0 hsecond hx, hrc⟩

end Sys2Proof.Proofs
end

/-! PROOFS. The framebuffer and the compositor: clearing surfaces (O48, O49) and single pixels (O50, O51). -/
section
namespace Sys2Proof.Proofs

open Sys2Proof Sys2Proof.Machine

/-! ### Clearing surfaces -/

/-- Settles O48: the next state is the cleared surface, answered, and a filled array reads as its fill. -/
theorem clearResetsOneSurface : Obligations.ClearResetsOneSurface :=
  fun _ hf => ⟨⟨_, execClear_run hf .bg, rfl, fun a => ⟨read_filled 0 a, read_filled 0 a⟩⟩,
    _, execClear_run hf .spr, rfl, fun a => read_filled 0 a⟩

/-- The two surfaces cleared one after the other, in either order and with a response in between (R197). -/
theorem clearSurface_both {surf surf' : Surf} (hne : surf ≠ surf') (d d' : BitVec 32) (s : State) :
    respond d' (clearSurface surf' (respond d (clearSurface surf s))) =
      respond d' (clearSurface .spr (clearSurface .bg s)) := by
  cases surf <;> cases surf'
  case bg.spr | spr.bg => rfl
  case bg.bg | spr.spr => exact absurd rfl hne

theorem clearSurface_fault (surf : Surf) (s : State) : (clearSurface surf s).fault = s.fault := by cases surf <;> rfl

/-- Settles O49: `CLRFRAME` clears both surfaces in one order, and the order of two clears does not matter
(`clearSurface_both`). -/
theorem clrframeIsBothClears : Obligations.ClrframeIsBothClears := by
  intro s hf
  refine ⟨_, execClrframe_run hf, rfl, fun a => ⟨read_filled 0 a, read_filled 0 a, read_filled 0 a⟩, ?_⟩
  intro surf surf' u hne hfirst
  rw [execClear_run hf] at hfirst
  cases hfirst
  have hf' : (respond 0 (clearSurface surf s)).fault = false := by rw [respond_fault, clearSurface_fault, hf]
  rw [execClear_run hf', clearSurface_both hne]

/-! ### Single pixels -/

/-- What the written surface reads as: the value at the pixel's address (R12), and what it held elsewhere. -/
theorem writePixel_same_surface (surf : Surf) (x y : Nat) (v : Rgba) (s : State) :
    ((writePixel surf x y v s).surface surf).read (y * 160 + x) = v ∧
      ∀ a, a ≠ y * 160 + x → ((writePixel surf x y v s).surface surf).read a = (s.surface surf).read a := by
  rw [← pixAddr_eq]
  refine ⟨?_, fun a ha => ?_⟩
  · rw [surface_writePixel_read, if_pos ⟨rfl, rfl⟩]
  · rw [surface_writePixel_read, if_neg fun h => ha h.2]

/-- Settles O50: `execWrpix_inside` gives the next state, and `writePixel_same_surface` what the surface reads as. -/
theorem wrpixStoresOnePixel : Obligations.WrpixStoresOnePixel :=
  fun x y v s hf hx hy =>
    ⟨⟨_, execWrpix_inside hf hx hy .bg v, rfl, writePixel_same_surface .bg x.toNat y.toNat v s⟩,
      _, execWrpix_inside hf hx hy .spr v, rfl, writePixel_same_surface .spr x.toNat y.toNat v s⟩

/-- Settles O51: `execRdpix_inside`, with the address and the response written out. -/
theorem rdpixAnswersThePixel : Obligations.RdpixAnswersThePixel :=
  fun _ _ _ hf hx hy => ⟨execRdpix_inside hf hx hy .bg, execRdpix_inside hf hx hy .spr⟩

end Sys2Proof.Proofs
end

/-! PROOFS. The fault latch: what sets it (O9, O11, O12), what it refuses (O10), what clears it (O13), and what the end of a run
tells of the run (O60). -/
section
namespace Sys2Proof.Proofs

open Sys2Proof Sys2Proof.Machine

/-! ### The words no row of the table selects -/

/-- The unassigned operation codes (R84, R90). -/
theorem formatOf_eq_none_iff (op : Byte) : formatOf op = none ↔ op = 0 ∨ 0x0C ≤ op := by
  revert op
  decide

/-- Every assigned operation code has a row of the table, of the code's format (R84). -/
theorem exists_row_of_formatOf {w : CmdWord} {f : Format} (hf : formatOf (opField w) = some f) :
    ∃ row ∈ opcodeTable, opField row.pattern = opField w ∧ row.format = f := by
  obtain ⟨row, hrow, -, hcode⟩ := exists_row (operandsOf w)
  rw [(operandsOf_readsAs hf).opcode_eq] at hcode
  obtain ⟨hformat, -, -⟩ := opcodeTable_row hrow
  rw [hcode, hf] at hformat
  exact ⟨row, hrow, hcode, (Option.some.inj hformat).symm⟩

/-- No row selects a word exactly when no format finds its must-be-zero bits clear (R90). -/
theorem not_selected_iff (w : CmdWord) : (∀ row ∈ opcodeTable, w &&& row.mask ≠ row.pattern) ↔
    ∀ f, formatOf (opField w) = some f → w &&& f.mustBeZero ≠ 0 := by
  constructor
  · intro hnone f hf hz
    obtain ⟨row, hrow, hcode, rfl⟩ := exists_row_of_formatOf hf
    exact hnone row hrow ((selects_iff hrow w).mpr ⟨hcode.symm, hz⟩)
  · intro hbits row hrow hselects
    obtain ⟨hop, hz⟩ := (selects_iff hrow w).mp hselects
    exact hbits row.format (hop ▸ (opcodeTable_row hrow).1) hz

theorem decode_error_of_not_selected {w : CmdWord} (hnone : ∀ row ∈ opcodeTable, w &&& row.mask ≠ row.pattern) :
    ∃ e, decode w = .error e := by
  cases hdecode : decode w with
  | error e => exact ⟨e, rfl⟩
  | ok i =>
    obtain ⟨f, hf, hz, -⟩ := decode_ok hdecode
    exact absurd hz ((not_selected_iff w).mp hnone f hf)

/-- A word no row selects, by its fields: an unassigned operation code, or a set bit that the code's format does not name. -/
theorem not_selected_iff_fields (w : CmdWord) : (∀ row ∈ opcodeTable, w &&& row.mask ≠ row.pattern) ↔
    opField w = 0 ∨ 0x0C ≤ opField w ∨ ∃ f, formatOf (opField w) = some f ∧ w &&& f.mustBeZero ≠ 0 := by
  rw [not_selected_iff, ← or_assoc, ← formatOf_eq_none_iff]
  cases formatOf (opField w) <;> simp

/-- Settles O9: a word no row selects decodes to nothing, so its step raises `ILLEGAL_COMMAND`; `not_selected_iff_fields` says
which words these are. -/
theorem illegalWordsLatchIllegalCommand : Obligations.IllegalWordsLatchIllegalCommand := by
  refine ⟨fun s w rest hp hf hnone => ?_, fun w => ?_⟩
  · obtain ⟨e, hdecode⟩ := decode_error_of_not_selected hnone
    rw [step_command hp, runWord_error hdecode, illegalCommand_run (s := setPending rest s) hf]
    rfl
  · rw [not_selected_iff_fields]
    simp only [Format.mustBeZero, BitVec.and_comm]

/-! ### What a set latch refuses -/

/-- While `FAULT = 1` a command word is refused, legal or not (R220, R223). -/
theorem runWord_refused {s : State} (hf : s.fault = true) (w : CmdWord) : runWord w s = .next (refuse s) := by
  cases hdecode : decode w with
  | ok i => rw [runWord_ok hdecode, exec_refused hf]
  | error e => rw [runWord_error hdecode, illegalCommand_refused hf]

/-- Settles O10: a word (`runWord_refused`) and an operation (`exec_refused`) change the response only. -/
theorem theLatchRefusesEveryCommand : Obligations.TheLatchRefusesEveryCommand := by
  refine ⟨fun s w rest hp hf => ?_, fun i s hf => exec_refused hf i⟩
  rw [step_command hp, runWord_refused (s := setPending rest s) hf]
  rfl

/-! ### What sets the latch -/

/-- Settles O11: outside the surface both operations take their other branch, which raises `EXTENT`. -/
theorem pixelsOutsideTheSurfaceLatchExtent : Obligations.PixelsOutsideTheSurfaceLatchExtent := by
  intro surf x y rgba s hf houtside
  rw [execWrpix_run hf, execRdpix_run hf, (inExtent_false_iff x y).mpr houtside]
  exact ⟨rfl, rfl⟩

/-- An operation that sets the latch is a pixel access, and raising `EXTENT` is all it does (R217, R222). -/
theorem exec_raises {i : Instr} {s t : State} (hf : s.fault = false) (h : exec i s = .next t) (ht : t.fault = true) :
    t = raiseFault .extent s ∧ ∃ surf x y, (∃ v, i = .wrpix surf x y v) ∨ i = .rdpix surf x y := by
  rcases exec_next h with ⟨hlatched, -⟩ | ⟨-, heffect⟩
  · simp [hf] at hlatched
  · rcases effect_latch heffect with ⟨hkept, -⟩ | hraised
    · simp [hkept, hf] at ht
    · exact hraised

/-- A command word that sets the latch does nothing but raise a fault (R222). -/
theorem runWord_raises {w : CmdWord} {s t : State} (hf : s.fault = false) (h : runWord w s = .next t)
    (ht : t.fault = true) : ∃ code, t = raiseFault code s := by
  cases hdecode : decode w with
  | ok i =>
    rw [runWord_ok hdecode] at h
    exact ⟨_, (exec_raises hf h ht).1⟩
  | error e =>
    rw [runWord_error hdecode, illegalCommand_run hf] at h
    cases h
    exact ⟨_, rfl⟩

/-- Settles O12: a word that sets the latch only raises a fault (`runWord_raises`), and `exec_raises` names the operations. -/
theorem faultsArePrecise : Obligations.FaultsArePrecise := by
  refine ⟨fun s t w rest hp hf hstep ht => ?_, fun i s t hf h ht => (exec_raises hf h ht).2⟩
  rw [step_command hp] at hstep
  obtain ⟨code, rfl⟩ := runWord_raises (s := setPending rest s) hf hstep ht
  rfl

/-! ### What clears the latch -/

/-- A step from a latched state keeps the latch and its code, or is a reset (R220, R224). -/
theorem step_of_latched {s t : State} (hf : s.fault = true) (h : step s = .next t) :
    (t.fault = true ∧ t.fcode = s.fcode) ∨ ((∃ rest, s.pending = .reset :: rest) ∧ t.fault = false) := by
  cases step_next h with
  | idle => exact .inl ⟨hf, rfl⟩
  | refused => exact .inl ⟨hf, rfl⟩
  | collaborator => exact .inl ⟨hf, rfl⟩
  | reset rest hp => exact .inr ⟨⟨rest, hp⟩, rfl⟩
  | ran _ _ _ _ _ _ hf' | illegal _ _ _ _ _ hf' | notified _ _ hf' => simp [hf] at hf'

/-- Settles O13: `step_of_latched`, and `resetBlock` clears the latch and the code. -/
theorem onlyResetClearsTheLatch : Obligations.OnlyResetClearsTheLatch := by
  refine ⟨fun s t hf h => ?_, fun s rest hp => ⟨_, step_reset hp, rfl, rfl⟩⟩
  rcases step_of_latched hf h with ⟨ht, hcode⟩ | ⟨hreset, ht⟩
  · exact ⟨fun ht' => by simp [ht] at ht', fun _ => hcode⟩
  · exact ⟨fun _ => hreset, fun ht' => by simp [ht] at ht'⟩

/-! ### What the end of a run tells -/

/-- A run stops at no fault and no refusal (R221). -/
theorem exists_run_eq_next (k : Nat) (s : State) : ∃ t, Host.Core.run Sys2Proof.core k s = .next t := by
  induction k generalizing s with
  | zero => exact ⟨s, rfl⟩
  | succ k ih =>
    obtain ⟨u, hu, -⟩ := step_cases s
    rw [run_succ hu]
    exact ih u

/-- A run goes on from where its beginning ends. -/
theorem run_add {j : Nat} {s u : State} (h : Host.Core.run Sys2Proof.core j s = .next u) (k : Nat) :
    Host.Core.run Sys2Proof.core (j + k) s = Host.Core.run Sys2Proof.core k u := by
  induction j generalizing s with
  | zero =>
    cases h
    rw [Nat.zero_add]
  | succ j ih =>
    obtain ⟨v, hv, -⟩ := step_cases s
    rw [run_succ hv] at h
    rw [Nat.add_right_comm, run_succ hv, ih h]

/-- No reset stands in the stream still to come. -/
def noResetComes (s : State) : Prop := ∀ e ∈ s.pending, e ≠ .reset

theorem noResetComes_step {s t : State} (hs : noResetComes s) (h : step s = .next t) : noResetComes t := by
  intro e he
  rw [step_pending h] at he
  exact hs e (List.mem_of_mem_tail he)

/-- What `step_latch` says of every step but a reset, of every step of a stream without one. -/
theorem step_latch_of_noResetComes {s t : State} (hs : noResetComes s) (h : step s = .next t) :
    (s.fault = true → t.fault = true) ∧
      ((∃ r, t.resp = some r ∧ respFault r = t.fault) ∨ (t.resp = s.resp ∧ t.fault = s.fault)) :=
  step_latch h fun rest hp => hs .reset (by simp [hp]) rfl

/-- Once set, the latch stays set to the end of a run without a reset (R224). -/
theorem run_keeps_latch {k : Nat} {s t : State} (hs : noResetComes s) (hf : s.fault = true)
    (hrun : Host.Core.run Sys2Proof.core k s = .next t) : t.fault = true :=
  (run_keeps (P := fun u => noResetComes u ∧ u.fault = true)
    (fun _ _ ⟨hu, hfault⟩ hstep => ⟨noResetComes_step hu hstep, (step_latch_of_noResetComes hu hstep).1 hfault⟩)
    ⟨hs, hf⟩ hrun).2

/-- Every state on the way of a run without a reset that ends well is good. -/
theorem good_of_run_good {j k : Nat} {s t u : State} (hs : noResetComes s)
    (hrun : Host.Core.run Sys2Proof.core k s = .next t) (ht : t.good) (hj : j ≤ k)
    (hu : Host.Core.run Sys2Proof.core j s = .next u) : u.good := by
  have hrest : Host.Core.run Sys2Proof.core (k - j) u = .next t := by
    rw [← run_add hu, Nat.add_sub_cancel' hj, hrun]
  have hsu : noResetComes u := run_keeps (P := noResetComes) (fun _ _ => noResetComes_step) hs hu
  refine Bool.eq_false_iff.mpr fun hf => ?_
  exact Bool.noConfusion (ht.symm.trans (run_keeps_latch hsu hf hrest))

/-- The latch is the fault bit on the response port; an empty port shows none. -/
def portTellsLatch (s : State) : Prop := s.fault = s.resp.any respFault

theorem noFaultShown_iff (s : State) : s.noFaultShown ↔ s.resp.any respFault = false := by
  cases hresp : s.resp <;> simp [State.noFaultShown, hresp]

theorem good_iff_noFaultShown {s : State} (h : portTellsLatch s) : s.good ↔ s.noFaultShown := by
  rw [noFaultShown_iff, ← h, State.good]

theorem portTellsLatch_step {s t : State} (hs : noResetComes s) (hport : portTellsLatch s) (h : step s = .next t) :
    portTellsLatch t := by
  rcases (step_latch_of_noResetComes hs h).2 with ⟨r, hresp, hr⟩ | ⟨hresp, hfault⟩
  · simp [portTellsLatch, hresp, hr]
  · rw [portTellsLatch, hresp, hfault, hport]

/-- In a run without a reset the port goes on telling the latch (R83). -/
theorem run_portTellsLatch {k : Nat} {s t : State} (hs : noResetComes s) (hport : portTellsLatch s)
    (hrun : Host.Core.run Sys2Proof.core k s = .next t) : portTellsLatch t :=
  (run_keeps (P := fun u => noResetComes u ∧ portTellsLatch u)
    (fun _ _ ⟨hu, hp⟩ hstep => ⟨noResetComes_step hu hstep, portTellsLatch_step hu hp hstep⟩) ⟨hs, hport⟩ hrun).2

/-- Settles O60: a latch once set would be set at the end (`good_of_run_good`), and on the way the port tells the latch
(`run_portTellsLatch`), at the start because it shows no fault and there is none. -/
theorem aGoodEndMeansAGoodRun : Obligations.AGoodEndMeansAGoodRun := by
  refine ⟨fun s t k hs hrun ht j hj => ?_, fun s t k hs hgood hshown hrun => ?_⟩
  · obtain ⟨u, hu⟩ := exists_run_eq_next j s
    exact ⟨u, hu, good_of_run_good hs hrun ht hj hu⟩
  · have hport : portTellsLatch s := hgood.trans ((noFaultShown_iff s).mp hshown).symm
    refine ⟨fun ht j hj => ?_, fun hall => ?_⟩
    · obtain ⟨u, hu⟩ := exists_run_eq_next j s
      exact ⟨u, hu, (good_iff_noFaultShown (run_portTellsLatch hs hport hu)).mp (good_of_run_good hs hrun ht hj hu)⟩
    · obtain ⟨u, hu, hnone⟩ := hall k le_rfl
      cases hrun.symm.trans hu
      exact (good_iff_noFaultShown (run_portTellsLatch hs hport hrun)).mpr hnone

end Sys2Proof.Proofs
end
